-- ==== Sys2Proof/Word.lean ====
section
/-! DEFINITION. The widths of the machine (00_scope.md R8, R9, R10): a register, memory word, immediate or data address is a
32-bit word, a register index is one of 32, an instruction word has 64 bits. -/

namespace Sys2Proof

/-- A word (R9): XLEN = 32 bits; `BitVec.toInt` is its value as a signed integer, -2^31 .. 2^31 - 1. -/
abbrev Word := BitVec 32

/-- A register index, 0 .. 31 (R20). A larger index cannot be written down: it is a decode error (R40, R86). -/
abbrev RegIdx := Fin 32

/-- An instruction word at the word level (R100): ILEN = 64 bits. -/
abbrev InstrWord := BitVec 64

end Sys2Proof
end

