-- ==== Sys2Proof/Config.lean ====
section
/-! DEFINITION. The parameters of the hardware, at the values spec/00_scope.md R8 gives them. No value of this machine is left
free: 92_eei_decisions.md leaves no point open. XLEN and ILEN are the widths of `Word` and `InstrWord`. -/

namespace Sys2Proof

/-- LINK (R8, R39): the register JAL writes. -/
def Config.link : RegIdx := 7

/-- The largest PROGLEN the loader may hand over, 2^31 - 1 (R8, R181; the spec's decision D3). -/
def Config.progLenMax : Nat := 2147483647

/-- CACHE_RESET (R8, R36; the spec's decision D5): the reset value of `cache_enabled`. UNVERIFIED of the reference: log 8. -/
def Config.cacheReset : Bool := false

/-- HALT_PC_INC (R8, R172; the spec's decision D8): what a HALT step adds to the pc. UNVERIFIED of the reference: log 9. -/
def Config.haltPcInc : Int := 0

end Sys2Proof
end

