-- ==== Sys2Proof/Syntax.lean ====
section
/-! DEFINITION. The instructions: one constructor for each row of spec/opcode_table.json. -/

namespace Sys2Proof

/-- A decoded instruction (30_encoding.md, the type `Decoded` at its head; the operand order is R82's). The operands of the
six `unknown` rows are not inspected (R81), so of such a word only its `op` number is kept, as R105's `Unknown(op)` does. -/
inductive Instr where
  /-- ADD rd, rs, rt (R140) -/
  | add (rd rs rt : RegIdx)
  /-- SUB rd, rs, rt (R141) -/
  | sub (rd rs rt : RegIdx)
  /-- ADDI rt, rs, imm (R142) -/
  | addi (rt rs : RegIdx) (imm : Word)
  /-- LW rt, offset(rs) (R150) -/
  | lw (rt rs : RegIdx) (offset : Word)
  /-- SW rt, offset(rs) (R151) -/
  | sw (rt rs : RegIdx) (offset : Word)
  /-- SLT rd, rs, rt (R143) -/
  | slt (rd rs rt : RegIdx)
  /-- BNE rs, rt, offset (R160) -/
  | bne (rs rt : RegIdx) (offset : Word)
  /-- J target (R161) -/
  | j (target : Word)
  /-- JAL target (R162) -/
  | jal (target : Word)
  /-- CACHE code (R170) -/
  | cache (code : Word)
  /-- HALT (R172) -/
  | halt
  /-- unknown opcode, `op` = 0x00 (R176; table row UNKNOWN_00) -/
  | unknown00
  /-- unknown opcode, `op` in 0x0C .. 0x0F (R176; table row UNKNOWN_0C_0F) -/
  | unknown0C0F (op : BitVec 8)
  /-- unknown opcode, `op` in 0x10 .. 0x1F (R176; table row UNKNOWN_10_1F) -/
  | unknown101F (op : BitVec 8)
  /-- unknown opcode, `op` in 0x20 .. 0x3F (R176; table row UNKNOWN_20_3F) -/
  | unknown203F (op : BitVec 8)
  /-- unknown opcode, `op` in 0x40 .. 0x7F (R176; table row UNKNOWN_40_7F) -/
  | unknown407F (op : BitVec 8)
  /-- unknown opcode, `op` in 0x80 .. 0xFF (R176; table row UNKNOWN_80_FF) -/
  | unknown80FF (op : BitVec 8)
  deriving DecidableEq, Repr

end Sys2Proof
end

