-- ==== Sys2Proof/WellFormed.lean ====
section
/-! DEFINITION. The check on instructions that their types leave to do: the `op` number of an unknown-opcode row lies in that
row's range (spec/opcode_table.json; 30_encoding.md R101, R110). Register indices and words are in range by their types. -/

namespace Sys2Proof

/-- `op` lies in `lo .. hi`. -/
def opInRange (lo hi : Nat) (op : BitVec 8) : Bool := decide (lo ≤ op.toNat ∧ op.toNat ≤ hi)

/-- The instruction is one its row of the opcode table describes. -/
def wellFormed : Instr → Bool
  | .add _ _ _ => true
  | .sub _ _ _ => true
  | .addi _ _ _ => true
  | .lw _ _ _ => true
  | .sw _ _ _ => true
  | .slt _ _ _ => true
  | .bne _ _ _ => true
  | .j _ => true
  | .jal _ => true
  | .cache _ => true
  | .halt => true
  | .unknown00 => true
  | .unknown0C0F op => opInRange 0x0C 0x0F op
  | .unknown101F op => opInRange 0x10 0x1F op
  | .unknown203F op => opInRange 0x20 0x3F op
  | .unknown407F op => opInRange 0x40 0x7F op
  | .unknown80FF op => opInRange 0x80 0xFF op

end Sys2Proof
end

