-- ==== Sys2Proof/Decode.lean ====
section
/-! DEFINITION. Decoding at both levels of spec/00_scope.md R7: instruction records (30_encoding.md R80 to R90) and 64-bit
instruction words (R100 to R105), then the encoder (R107), the assembly spelling (R114), the relation of the two levels
(R109) and the rows of spec/opcode_table.json. Both decoders are total and reject by name. -/

namespace Sys2Proof

/-! ## The program store's entries and the result of decoding -/

/-- A token or an opcode tag: a string of characters (R85). -/
abbrev Token := List Char

/-- InstructionRecord (R80): an opcode tag and an ordered sequence of operand tokens. -/
structure Record where
  opcode : Token
  operands : List Token
  deriving DecidableEq, Repr

/-- One entry of the program store: a record (record level) or a 64-bit word (word level); R7, R31, R109
(DESIGN CHOICE to hold both: log 1). -/
inductive Slot where
  | record (r : Record)
  | word (w : InstrWord)
  deriving DecidableEq, Repr

/-- The sub-causes of a bad operand token (60_exceptions.md R206). -/
inductive OperandFault where
  /-- the token is not `R` and decimal digits (R86) -/
  | malformedRegister
  /-- the index is above 31 (R86) -/
  | registerRange
  /-- the token is not an optional sign and decimal digits (R87) -/
  | malformedLiteral
  /-- the literal is not in the word range (R87) -/
  | literalRange
  /-- the token is not `literal(register)` (R88) -/
  | malformedMemory
  deriving DecidableEq, Repr

/-- The payload of InvalidOperand (R206; the spec's decision D24). -/
inductive InvalidInfo where
  /-- wrong operand count (R83) -/
  | arity
  /-- the first bad operand: its position counted from 1, its text, the sub-cause (R89) -/
  | operand (position : Nat) (text : Token) (cause : OperandFault)
  /-- a must-be-zero field of an instruction word is not zero (R104) -/
  | mbz
  deriving DecidableEq, Repr

/-- The value decoding gives (30_encoding.md, head): an instruction (a word with an unknown `op` is one of the six unknown
rows), an unknown opcode tag of a record, or an invalid encoding. -/
inductive Decoded where
  | instr (i : Instr)
  | unknownTag (tag : Token)
  | invalid (info : InvalidInfo)
  deriving DecidableEq, Repr

/-- The eleven opcodes (00_scope.md R2), shared by both levels. -/
inductive Opcode where
  | add | sub | addi | lw | sw | slt | bne | j | jal | cache | halt
  deriving DecidableEq, Repr

/-! ## The word level -/

/-- `op`, bits 63:56 (R100). -/
def opField (w : InstrWord) : BitVec 8 := w.extractLsb' 56 8

/-- `a`, bits 55:51 (R100). -/
def aField (w : InstrWord) : BitVec 5 := w.extractLsb' 51 5

/-- `b`, bits 50:46 (R100). -/
def bField (w : InstrWord) : BitVec 5 := w.extractLsb' 46 5

/-- `c`, bits 45:41 (R100). -/
def cField (w : InstrWord) : BitVec 5 := w.extractLsb' 41 5

/-- `z`, bits 40:32, must be zero (R100). -/
def zField (w : InstrWord) : BitVec 9 := w.extractLsb' 32 9

/-- `imm`, bits 31:0; as a word its value is sext_32 of the field (R100, R103). -/
def immField (w : InstrWord) : Word := w.extractLsb' 0 32

/-- The register a five-bit field names; an index above 31 cannot be represented (R100). -/
def regOf (f : BitVec 5) : RegIdx := f.toFin

/-- The opcode a number names, none for 0x00 and 0x0C .. 0xFF (R101). -/
def opcodeOfNumber (op : BitVec 8) : Option Opcode :=
  match op.toNat with
  | 0x01 => some .add
  | 0x02 => some .sub
  | 0x03 => some .addi
  | 0x04 => some .lw
  | 0x05 => some .sw
  | 0x06 => some .slt
  | 0x07 => some .bne
  | 0x08 => some .j
  | 0x09 => some .jal
  | 0x0A => some .cache
  | 0x0B => some .halt
  | _ => none

/-- The unknown row an `op` outside 0x01 .. 0x0B falls in (spec/opcode_table.json; R110). -/
def unknownRow (op : BitVec 8) : Instr :=
  if op.toNat = 0 then .unknown00
  else if op.toNat < 0x10 then .unknown0C0F op
  else if op.toNat < 0x20 then .unknown101F op
  else if op.toNat < 0x40 then .unknown203F op
  else if op.toNat < 0x80 then .unknown407F op
  else .unknown80FF op

/-- Format R3: three registers, `z` and `imm` must be zero (R101, R104, R105). -/
def wordR3 (make : RegIdx → RegIdx → RegIdx → Instr) (w : InstrWord) : Decoded :=
  if zField w = 0 ∧ immField w = 0 then .instr (make (regOf (aField w)) (regOf (bField w)) (regOf (cField w)))
  else .invalid .mbz

/-- Formats RI and M: two registers and the immediate, `c` and `z` must be zero (R101, R104, R105). -/
def wordRI (make : RegIdx → RegIdx → Word → Instr) (w : InstrWord) : Decoded :=
  if zField w = 0 ∧ cField w = 0 then .instr (make (regOf (aField w)) (regOf (bField w)) (immField w))
  else .invalid .mbz

/-- Format I: the immediate alone, `a`, `b`, `c` and `z` must be zero (R101, R104, R105). -/
def wordI (make : Word → Instr) (w : InstrWord) : Decoded :=
  if zField w = 0 ∧ aField w = 0 ∧ bField w = 0 ∧ cField w = 0 then .instr (make (immField w))
  else .invalid .mbz

/-- Format N: every field but `op` must be zero (R101, R104, R105). -/
def wordN (i : Instr) (w : InstrWord) : Decoded :=
  if zField w = 0 ∧ aField w = 0 ∧ bField w = 0 ∧ cField w = 0 ∧ immField w = 0 then .instr i
  else .invalid .mbz

/-- The operands of a word whose `op` names an opcode, by the opcode's format (R101, R105). -/
def wordOperands (o : Opcode) (w : InstrWord) : Decoded :=
  match o with
  | .add => wordR3 .add w
  | .sub => wordR3 .sub w
  | .addi => wordRI .addi w
  | .lw => wordRI .lw w
  | .sw => wordRI .sw w
  | .slt => wordR3 .slt w
  | .bne => wordRI .bne w
  | .j => wordI .j w
  | .jal => wordI .jal w
  | .cache => wordI .cache w
  | .halt => wordN .halt w

/-- WordDecode (R105): total on all 2^64 words; the test for an unknown `op` comes first. -/
def wordDecode (w : InstrWord) : Decoded :=
  match opcodeOfNumber (opField w) with
  | none => .instr (unknownRow (opField w))
  | some o => wordOperands o w

/-! ## The record level -/

/-- ASCII upper case of one character (R81). -/
def upperChar (c : Char) : Char :=
  if 97 ≤ c.toNat ∧ c.toNat ≤ 122 then Char.ofNat (c.toNat - 32) else c

/-- The eleven names (R2, R81). -/
def opcodeNames : List (Token × Opcode) :=
  [(['A', 'D', 'D'], .add), (['S', 'U', 'B'], .sub), (['A', 'D', 'D', 'I'], .addi), (['L', 'W'], .lw),
   (['S', 'W'], .sw), (['S', 'L', 'T'], .slt), (['B', 'N', 'E'], .bne), (['J'], .j), (['J', 'A', 'L'], .jal),
   (['C', 'A', 'C', 'H', 'E'], .cache), (['H', 'A', 'L', 'T'], .halt)]

/-- The opcode a tag names: the whole tag is compared, without regard to the case of ASCII letters (R81, D17). -/
def opcodeOfTag (tag : Token) : Option Opcode := opcodeNames.lookup (tag.map upperChar)

/-- The value of a decimal digit (R86). -/
def digitValue (c : Char) : Option Nat :=
  if 48 ≤ c.toNat ∧ c.toNat ≤ 57 then some (c.toNat - 48) else none

/-- The decimal value of the digits `cs` written after digits of value `acc`. -/
def digitsValue (acc : Nat) : Token → Option Nat
  | [] => some acc
  | c :: cs =>
    match digitValue c with
    | some d => digitsValue (10 * acc + d) cs
    | none => none

/-- One or more decimal digits and nothing else (R86, R87). -/
def naturalValue : Token → Option Nat
  | [] => none
  | c :: cs => digitsValue 0 (c :: cs)

/-- Optional sign and decimal digits, as an exact integer (R87). -/
def literalValue : Token → Option Int
  | [] => none
  | c :: cs =>
    if c = '+' then (naturalValue cs).map Int.ofNat
    else if c = '-' then (naturalValue cs).map fun n => -Int.ofNat n
    else (naturalValue (c :: cs)).map Int.ofNat

/-- Integer literal (R87): its value must be a word; it is refused, not wrapped, otherwise. -/
def parseLiteral (t : Token) : Except OperandFault Word :=
  match literalValue t with
  | none => .error .malformedLiteral
  | some v => if -2147483648 ≤ v ∧ v ≤ 2147483647 then .ok (BitVec.ofInt 32 v) else .error .literalRange

/-- Register token (R86): `R` and decimal digits of value at most 31, leading zeros allowed. -/
def parseRegister : Token → Except OperandFault RegIdx
  | [] => .error .malformedRegister
  | c :: cs =>
    if c = 'R' then
      match naturalValue cs with
      | none => .error .malformedRegister
      | some n => if h : n < 32 then .ok ⟨n, h⟩ else .error .registerRange
    else .error .malformedRegister

/-- The parts of a token before and after its first `(`. -/
def splitAtOpen : Token → Option (Token × Token)
  | [] => none
  | c :: cs => if c = '(' then some ([], cs) else (splitAtOpen cs).map fun p => (c :: p.1, p.2)

/-- A token without the `)` it must end in. -/
def dropClose : Token → Option Token
  | [] => none
  | [c] => if c = ')' then some [] else none
  | c :: d :: cs => (dropClose (d :: cs)).map fun t => c :: t

/-- A part of a memory token that has the wrong form makes the memory token malformed; a value out of range keeps its
sub-cause (R88; spec/95_test_vectors.md 2.1; DESIGN CHOICE for the reported cause: log 10). -/
def inMemoryToken : OperandFault → OperandFault
  | .malformedRegister => .malformedMemory
  | .malformedLiteral => .malformedMemory
  | f => f

/-- Memory token `offset(R<n>)` (R88): the literal, `(`, a register token, `)`, nothing else; `literal` reads the offset. -/
def parseMemoryWith {β : Type} (literal : Token → Except OperandFault β) (t : Token) : Except OperandFault (β × RegIdx) :=
  match splitAtOpen t with
  | none => .error .malformedMemory
  | some (before, after) =>
    match dropClose after with
    | none => .error .malformedMemory
    | some inside =>
      match literal before, parseRegister inside with
      | .ok offset, .ok rs => .ok (offset, rs)
      | .ok _, .error f => .error (inMemoryToken f)
      | .error f, _ => .error (inMemoryToken f)

/-- Memory token with an offset that is a word (R87, R88). -/
def parseMemory (t : Token) : Except OperandFault (Word × RegIdx) := parseMemoryWith parseLiteral t

/-- The value of operand number `k`, or the report of it as the first bad operand (R89). -/
def operandAt {α : Type} (k : Nat) (t : Token) (parsed : Except OperandFault α) : Except InvalidInfo α :=
  match parsed with
  | .ok v => .ok v
  | .error f => .error (.operand k t f)

/-- Format R3: three register tokens (R82, R83). -/
def recordR3 {α : Type} (make : RegIdx → RegIdx → RegIdx → α) : List Token → Except InvalidInfo α
  | [t1, t2, t3] => do
    let r1 ← operandAt 1 t1 (parseRegister t1)
    let r2 ← operandAt 2 t2 (parseRegister t2)
    let r3 ← operandAt 3 t3 (parseRegister t3)
    return make r1 r2 r3
  | _ => .error .arity

/-- Format RI: two register tokens and a literal (R82, R83). -/
def recordRI {α β : Type} (literal : Token → Except OperandFault β) (make : RegIdx → RegIdx → β → α) :
    List Token → Except InvalidInfo α
  | [t1, t2, t3] => do
    let r1 ← operandAt 1 t1 (parseRegister t1)
    let r2 ← operandAt 2 t2 (parseRegister t2)
    let v ← operandAt 3 t3 (literal t3)
    return make r1 r2 v
  | _ => .error .arity

/-- Format M: a register token and a memory token (R82, R83). -/
def recordM {α β : Type} (memory : Token → Except OperandFault (β × RegIdx)) (make : RegIdx → RegIdx → β → α) :
    List Token → Except InvalidInfo α
  | [t1, t2] => do
    let r1 ← operandAt 1 t1 (parseRegister t1)
    let m ← operandAt 2 t2 (memory t2)
    return make r1 m.2 m.1
  | _ => .error .arity

/-- Format I: one literal (R82, R83). -/
def recordI {α β : Type} (literal : Token → Except OperandFault β) (make : β → α) : List Token → Except InvalidInfo α
  | [t1] => do
    let v ← operandAt 1 t1 (literal t1)
    return make v
  | _ => .error .arity

/-- Format N: no operand (R82, R83). -/
def recordN {α : Type} (i : α) : List Token → Except InvalidInfo α
  | [] => .ok i
  | _ => .error .arity

/-- The operands of a recognised opcode: arity first, then the tokens from left to right (R82, R83, R89, R209). -/
def recordOperands (o : Opcode) (ts : List Token) : Except InvalidInfo Instr :=
  match o with
  | .add => recordR3 .add ts
  | .sub => recordR3 .sub ts
  | .addi => recordRI parseLiteral .addi ts
  | .lw => recordM parseMemory .lw ts
  | .sw => recordM parseMemory .sw ts
  | .slt => recordR3 .slt ts
  | .bne => recordRI parseLiteral .bne ts
  | .j => recordI parseLiteral .j ts
  | .jal => recordI parseLiteral .jal ts
  | .cache => recordI parseLiteral .cache ts
  | .halt => recordN .halt ts

/-- Decode (R89): total on every record; an unknown tag wins over any operand (R81). -/
def recordDecode (r : Record) : Decoded :=
  match opcodeOfTag r.opcode with
  | none => .unknownTag r.opcode
  | some o =>
    match recordOperands o r.operands with
    | .ok i => .instr i
    | .error info => .invalid info

/-- Decoding one entry of the program store, at either level (R109). -/
def slotDecode : Slot → Decoded
  | .record r => recordDecode r
  | .word w => wordDecode w

/-! ## The encoder -/

/-- An instruction word from its fields, `z` = 0 (R100, R107). -/
def packWord (op : BitVec 8) (a b c : BitVec 5) (imm : Word) : InstrWord :=
  op ++ a ++ b ++ c ++ (0 : BitVec 9) ++ imm

/-- The five-bit field that names a register (R100). -/
def regBits (r : RegIdx) : BitVec 5 := BitVec.ofFin r

/-- Enc (R107), from the field assignment of R101; every must-be-zero field is 0. A word that stands for an unknown `op` has
its ignored fields 0 (R109). -/
def encode : Instr → InstrWord
  | .add rd rs rt => packWord 0x01 (regBits rd) (regBits rs) (regBits rt) 0
  | .sub rd rs rt => packWord 0x02 (regBits rd) (regBits rs) (regBits rt) 0
  | .addi rt rs imm => packWord 0x03 (regBits rt) (regBits rs) 0 imm
  | .lw rt rs offset => packWord 0x04 (regBits rt) (regBits rs) 0 offset
  | .sw rt rs offset => packWord 0x05 (regBits rt) (regBits rs) 0 offset
  | .slt rd rs rt => packWord 0x06 (regBits rd) (regBits rs) (regBits rt) 0
  | .bne rs rt offset => packWord 0x07 (regBits rs) (regBits rt) 0 offset
  | .j target => packWord 0x08 0 0 0 target
  | .jal target => packWord 0x09 0 0 0 target
  | .cache code => packWord 0x0A 0 0 0 code
  | .halt => packWord 0x0B 0 0 0 0
  | .unknown00 => packWord 0x00 0 0 0 0
  | .unknown0C0F op => packWord op 0 0 0 0
  | .unknown101F op => packWord op 0 0 0 0
  | .unknown203F op => packWord op 0 0 0 0
  | .unknown407F op => packWord op 0 0 0 0
  | .unknown80FF op => packWord op 0 0 0 0

/-- The instruction is one of the eleven, not of the unknown-opcode class (R2, R110). -/
def isCore : Instr → Bool
  | .unknown00 => false
  | .unknown0C0F _ => false
  | .unknown101F _ => false
  | .unknown203F _ => false
  | .unknown407F _ => false
  | .unknown80FF _ => false
  | _ => true

/-! ## The relation of the two levels -/

/-- A word that stands for a record that does not decode: R109 allows any word WordDecode maps to Invalid; this one is R206's
example. -/
def invalidWord : InstrWord := 0x0B00000000000001

/-- The word for an entry of the program store (R109): Enc of a record's instruction, the all-zero word for an unknown tag. -/
def assemble : Slot → InstrWord
  | .word w => w
  | .record r =>
    match recordDecode r with
    | .instr i => encode i
    | .unknownTag _ => 0
    | .invalid _ => invalidWord

/-- A decimal digit's character. -/
def digitChar (d : Nat) : Char := Char.ofNat (48 + d)

/-- The last `fuel` decimal digits of `n` before `rest`, without leading zeros. -/
def decimalDigits : Nat → Nat → Token → Token
  | 0, _, rest => rest
  | fuel + 1, n, rest =>
    if n < 10 then digitChar n :: rest else decimalDigits fuel (n / 10) (digitChar (n % 10) :: rest)

/-- The literal that spells a word in decimal (R87, R114); a word's magnitude has at most ten digits. -/
def literalToken (v : Word) : Token :=
  if v.toInt < 0 then '-' :: decimalDigits 10 v.toInt.natAbs [] else decimalDigits 10 v.toInt.natAbs []

/-- The token `R<n>` (R86, R114). -/
def registerToken (r : RegIdx) : Token := 'R' :: decimalDigits 10 r.val []

/-- The token `offset(R<n>)` (R88, R114). -/
def memoryToken (offset : Word) (r : RegIdx) : Token := literalToken offset ++ '(' :: registerToken r ++ [')']

/-- The record that spells one of the eleven instructions (R82, R114); none for the unknown-opcode class. -/
def spell : Instr → Option Record
  | .add rd rs rt => some ⟨['A', 'D', 'D'], [registerToken rd, registerToken rs, registerToken rt]⟩
  | .sub rd rs rt => some ⟨['S', 'U', 'B'], [registerToken rd, registerToken rs, registerToken rt]⟩
  | .addi rt rs imm => some ⟨['A', 'D', 'D', 'I'], [registerToken rt, registerToken rs, literalToken imm]⟩
  | .lw rt rs offset => some ⟨['L', 'W'], [registerToken rt, memoryToken offset rs]⟩
  | .sw rt rs offset => some ⟨['S', 'W'], [registerToken rt, memoryToken offset rs]⟩
  | .slt rd rs rt => some ⟨['S', 'L', 'T'], [registerToken rd, registerToken rs, registerToken rt]⟩
  | .bne rs rt offset => some ⟨['B', 'N', 'E'], [registerToken rs, registerToken rt, literalToken offset]⟩
  | .j target => some ⟨['J'], [literalToken target]⟩
  | .jal target => some ⟨['J', 'A', 'L'], [literalToken target]⟩
  | .cache code => some ⟨['C', 'A', 'C', 'H', 'E'], [literalToken code]⟩
  | .halt => some ⟨['H', 'A', 'L', 'T'], []⟩
  | .unknown00 => none
  | .unknown0C0F _ => none
  | .unknown101F _ => none
  | .unknown203F _ => none
  | .unknown407F _ => none
  | .unknown80FF _ => none

/-! ## The opcode table -/

/-- A row of spec/opcode_table.json: the words `w` with `w &&& mask = pattern`. -/
structure TableRow where
  pattern : InstrWord
  mask : InstrWord
  deriving DecidableEq, Repr

/-- The row an instruction belongs to: `match` and `mask` as spec/opcode_table.json gives them (R104, R110). -/
def tableRow : Instr → TableRow
  | .add _ _ _ => ⟨0x0100000000000000, 0xFF0001FFFFFFFFFF⟩
  | .sub _ _ _ => ⟨0x0200000000000000, 0xFF0001FFFFFFFFFF⟩
  | .addi _ _ _ => ⟨0x0300000000000000, 0xFF003FFF00000000⟩
  | .lw _ _ _ => ⟨0x0400000000000000, 0xFF003FFF00000000⟩
  | .sw _ _ _ => ⟨0x0500000000000000, 0xFF003FFF00000000⟩
  | .slt _ _ _ => ⟨0x0600000000000000, 0xFF0001FFFFFFFFFF⟩
  | .bne _ _ _ => ⟨0x0700000000000000, 0xFF003FFF00000000⟩
  | .j _ => ⟨0x0800000000000000, 0xFFFFFFFF00000000⟩
  | .jal _ => ⟨0x0900000000000000, 0xFFFFFFFF00000000⟩
  | .cache _ => ⟨0x0A00000000000000, 0xFFFFFFFF00000000⟩
  | .halt => ⟨0x0B00000000000000, 0xFFFFFFFFFFFFFFFF⟩
  | .unknown00 => ⟨0x0000000000000000, 0xFF00000000000000⟩
  | .unknown0C0F _ => ⟨0x0C00000000000000, 0xFC00000000000000⟩
  | .unknown101F _ => ⟨0x1000000000000000, 0xF000000000000000⟩
  | .unknown203F _ => ⟨0x2000000000000000, 0xE000000000000000⟩
  | .unknown407F _ => ⟨0x4000000000000000, 0xC000000000000000⟩
  | .unknown80FF _ => ⟨0x8000000000000000, 0x8000000000000000⟩

/-! ## The host's reading of the table -/

/-- The instruction the decoder reads from the bits `w` of an instruction of `nbits` bits, the bits above being zero; none
where the word is invalid. An instruction is one 64-bit word whose bit 0 is the least significant (R10, R100, R108). -/
def decodeTableWord (nbits w : Nat) : Option Instr :=
  match wordDecode (BitVec.ofNat 64 (w % 2 ^ nbits)) with
  | .instr i => some i
  | .unknownTag _ => none
  | .invalid _ => none

end Sys2Proof
end

