-- ==== Sys2Proof/Machine/State.lean ====
section
/-! DEFINITION. The machine's state: the tuple of spec/10_state.md R38 with the launch parameters IMEM and PROGLEN, and nothing
else; the reasons a step can stop; the state after reset. -/

namespace Sys2Proof.Machine

/-- The data memory MEM (10_state.md R30): a finite partial map from word addresses to words, as the list of its set
addresses with their values, the addresses strictly rising as signed integers (`Memory.wf`). An address set to 0 is listed,
because it differs from one not set (20_memory.md R51; DEDUCED: log 2). -/
abbrev Memory := List (Word × Word)

/-- The complete state of the machine (10_state.md R38). -/
structure State where
  /-- `x[0]` .. `x[31]`, none hardwired (R20, R21) -/
  regs : Vector Word 32
  /-- the program counter, an exact integer, never wrapped (R22) -/
  pc : Int
  /-- cleared by HALT only (R24) -/
  running : Bool
  /-- `cache_enabled`: records the last cache-control directive, read by nothing (R25) -/
  cacheEnabled : Bool
  /-- `none`, or the InvalidOperand that ended the run (R26) -/
  fatal : Option InvalidInfo
  /-- MEM (R30) -/
  mem : Memory
  /-- IMEM, whose length is PROGLEN; no step changes it (R31) -/
  program : List Slot
  deriving DecidableEq, Repr

/-- Why no step exists (70_reset_and_hazards.md R240). Each is raised by `Machine.step` alone, in a stopped state, through
`Machine.fetch`; no instruction's meaning raises one. Safe: the machine takes no step there (log 4). -/
inductive Fault where
  /-- HALTED(HaltInstr): a HALT has cleared `running`. A final state. Safe. -/
  | haltInstr
  /-- HALTED(PcPastEnd): `running`, and the pc is at or past PROGLEN. A final state. Safe. -/
  | pcPastEnd
  /-- HALTED(PcBelowZero): `running`, and the pc is below 0. Not a final state (U3; log 12). Safe. -/
  | pcBelowZero
  /-- FATAL: an InvalidOperand has ended the run. Never a final state (60_exceptions.md R207). Safe. -/
  | fatal (info : InvalidInfo)
  deriving DecidableEq, Repr

/-- Why an instruction has no meaning in the model. No arm of `exec` answers one: every instruction has its meaning. -/
inductive Refusal where
  /-- Raised by an arm of `exec` for an instruction without a meaning yet; safe. No arm raises it. -/
  | notModelled (mnemonic : String)
  deriving DecidableEq, Repr

/-- The state after reset (10_state.md R36, 70_reset_and_hazards.md R230), with an empty program and an empty MEM0: both come
from the loader (`Machine.launch`, log 3). -/
def State.reset : State where
  regs := Vector.replicate 32 0
  pc := 0
  running := true
  cacheEnabled := Config.cacheReset
  fatal := none
  mem := []
  program := []

end Sys2Proof.Machine
end

