-- ==== Sys2Proof/Machine/Ops.lean ====
section
/-! DEFINITION. The named operations over registers, the pc, memory and the fatal stop (00_scope.md R9, R11; 20_memory.md). -/

namespace Sys2Proof.Machine

/-- wrap32 (R9): the word congruent to an exact integer modulo 2^32. -/
def wrap32 (z : Int) : Word := BitVec.ofInt 32 z

/-- `x[i]` as a word (R11, R20). -/
def readReg (s : State) (r : RegIdx) : Word := s.regs.get r

/-- `x[i]` as the signed integer it stands for (R9, R11). -/
def regInt (s : State) (r : RegIdx) : Int := (readReg s r).toInt

/-- `x[i] <- v`: every register including 0 is writable (R11, R21). -/
def writeReg (s : State) (r : RegIdx) (v : Word) : State := { s with regs := s.regs.set r v }

/-- `pc <- t`, never wrapped (R11, R22). -/
def setPc (s : State) (t : Int) : State := { s with pc := t }

/-- `pc <- pc + 1` (40_fetch_decode_dispatch.md R124). -/
def advance (s : State) : State := setPc s (s.pc + 1)

/-- Write a result register and go to the next instruction: the common end of ADD, SUB, ADDI, SLT and LW (R122). -/
def finishReg (s : State) (r : RegIdx) (v : Word) : State := advance (writeReg s r v)

/-! ## Data memory -/

/-- The value an address is set to, none when it is not set (R51). -/
def Memory.lookup : Memory → Word → Option Word
  | [], _ => none
  | (b, v) :: m, a => if a = b then some v else Memory.lookup m a

/-- MemRead (R52): the value of a set address, 0 for an unset one; it changes nothing. -/
def Memory.read (m : Memory) (a : Word) : Word := (Memory.lookup m a).getD 0

/-- MemWrite (R53): insert or overwrite, keeping the addresses rising as signed integers (R60). -/
def Memory.write : Memory → Word → Word → Memory
  | [], a, v => [(a, v)]
  | (b, u) :: m, a, v =>
    if a = b then (a, v) :: m
    else if a.toInt < b.toInt then (a, v) :: (b, u) :: m
    else (b, u) :: Memory.write m a v

/-- `load` (R50, R55): insert or update in order, so the last pair for an address wins. -/
def Memory.load (pairs : List (Word × Word)) : Memory :=
  pairs.foldl (fun m p => Memory.write m p.1 p.2) []

/-- The canonical form: the addresses strictly rising as signed integers. -/
def Memory.wf : Memory → Bool
  | [] => true
  | [_] => true
  | (a, _) :: (b, v) :: m => decide (a.toInt < b.toInt) && Memory.wf ((b, v) :: m)

/-- `MemRead(a, 1)` (R11). -/
def loadWord (s : State) (a : Word) : Word := Memory.read s.mem a

/-- `MemWrite(a, 1, v)` (R11). -/
def storeWord (s : State) (a v : Word) : State := { s with mem := Memory.write s.mem a v }

/-! ## The one exception and the unknown-opcode arm -/

/-- `raise InvalidOperand(info)` (R11, 60_exceptions.md R206): the step is abandoned with nothing changed but `fatal`. Nothing
is saved and control goes nowhere (R210); there is no return from it (R211). DEDUCED as a next state: log 5. -/
def raiseInvalidOperand (info : InvalidInfo) (s : State) : State := { s with fatal := some info }

/-- The state effect of an unknown opcode (44_system.md R176): the pc advances; its notice is in `traceOf`. -/
def skipUnknown (s : State) : State := advance s

end Sys2Proof.Machine
end

