-- ==== Sys2Proof/Machine/Operands.lean ====
section
/-! DEFINITION. The operand forms: literals, the one addressing mode and the control-transfer targets (30_encoding.md R90, R103;
42_load_store.md R152; 43_control_transfer.md). -/

namespace Sys2Proof.Machine

/-- A literal operand's value: the signed word as it stands, not extended, scaled or combined (R87, R90, R103). -/
def literalInt (v : Word) : Int := v.toInt

/-- The effective address `wrap32(x[rs] + offset)` (R152), counted in words. -/
def effectiveAddress (s : State) (rs : RegIdx) (offset : Word) : Word := wrap32 (regInt s rs + literalInt offset)

/-- BNE's target `pc + 1 + offset`, exact (R160, R132). -/
def branchTarget (s : State) (offset : Word) : Int := s.pc + 1 + literalInt offset

/-- The absolute instruction index J and JAL name (R161, R162). -/
def jumpTarget (target : Word) : Int := literalInt target

/-- JAL's link value `pc + 1` (R162); under the launch bound on PROGLEN it never wraps. -/
def linkValue (s : State) : Word := wrap32 (s.pc + 1)

end Sys2Proof.Machine
end

