-- ==== Sys2Proof/Machine/Flags.lean ====
section
/-! DEFINITION. The two flags and the two comparisons. The hardware has no condition codes (10_state.md R27): SLT's comparison
goes to a register and BNE compares registers itself. -/

namespace Sys2Proof.Machine

/-- `running <- b` (R24). -/
def setRunning (s : State) (b : Bool) : State := { s with running := b }

/-- `cache_enabled <- b` (R25). -/
def setCacheEnabled (s : State) (b : Bool) : State := { s with cacheEnabled := b }

/-- SLT's result: 1 if the left word is less than the right as signed integers, else 0 (41_arithmetic_compare.md R143). -/
def lessThanWord (x y : Int) : Word := if x < y then 1 else 0

/-- BNE's condition `x[rs] ≠ x[rt]` (43_control_transfer.md R160). -/
def registersDiffer (s : State) (rs rt : RegIdx) : Bool := decide (regInt s rs ≠ regInt s rt)

/-- What a CACHE code asks for (44_system.md R170). -/
inductive CacheDirective where
  | disable
  | enable
  | flush
  | unknownCode
  deriving DecidableEq, Repr

/-- The directive of a code: 0, 1, 2; any other word is an unknown code (R170, D23). -/
def cacheDirective (code : Word) : CacheDirective :=
  if literalInt code = 0 then .disable
  else if literalInt code = 1 then .enable
  else if literalInt code = 2 then .flush
  else .unknownCode

/-- The state effect of a directive: codes 0 and 1 write the flag, the others change nothing (R170). -/
def applyCacheDirective (s : State) : CacheDirective → State
  | .disable => setCacheEnabled s false
  | .enable => setCacheEnabled s true
  | .flush => s
  | .unknownCode => s

end Sys2Proof.Machine
end

