-- ==== Sys2Proof/Machine/Arithmetic.lean ====
section
/-! DEFINITION. ADD, SUB, ADDI, SLT (41_arithmetic_compare.md). Sources are read from the state before the step (R145). -/

namespace Sys2Proof.Machine

/-- ADD (R140): `x[rd] <- wrap32(x[rs] + x[rt]);  pc <- pc + 1`. -/
def execAdd (rd rs rt : RegIdx) (s : State) : Host.Outcome State Fault Refusal :=
  .next (finishReg s rd (wrap32 (regInt s rs + regInt s rt)))

/-- SUB (R141): `x[rd] <- wrap32(x[rs] − x[rt]);  pc <- pc + 1`. -/
def execSub (rd rs rt : RegIdx) (s : State) : Host.Outcome State Fault Refusal :=
  .next (finishReg s rd (wrap32 (regInt s rs - regInt s rt)))

/-- ADDI (R142): `x[rt] <- wrap32(x[rs] + imm);  pc <- pc + 1`. -/
def execAddi (rt rs : RegIdx) (imm : Word) (s : State) : Host.Outcome State Fault Refusal :=
  .next (finishReg s rt (wrap32 (regInt s rs + literalInt imm)))

/-- SLT (R143): `x[rd] <- (1 if x[rs] < x[rt] else 0);  pc <- pc + 1`. -/
def execSlt (rd rs rt : RegIdx) (s : State) : Host.Outcome State Fault Refusal :=
  .next (finishReg s rd (lessThanWord (regInt s rs) (regInt s rt)))

end Sys2Proof.Machine
end

