-- ==== Sys2Proof/Machine/Control.lean ====
section
/-! DEFINITION. BNE, J, JAL (43_control_transfer.md). A target outside the program is no fault (R163). -/

namespace Sys2Proof.Machine

/-- BNE (R160): `pc + 1 + offset` when the registers differ, else `pc + 1`. -/
def execBne (rs rt : RegIdx) (offset : Word) (s : State) : Host.Outcome State Fault Refusal :=
  .next (if registersDiffer s rs rt then setPc s (branchTarget s offset) else advance s)

/-- J (R161): `pc <- target`. -/
def execJ (target : Word) (s : State) : Host.Outcome State Fault Refusal :=
  .next (setPc s (jumpTarget target))

/-- JAL (R162): `x[7] <- pc + 1;  pc <- target`; the link comes from the pc at the start of the step. -/
def execJal (target : Word) (s : State) : Host.Outcome State Fault Refusal :=
  .next (setPc (writeReg s Config.link (linkValue s)) (jumpTarget target))

end Sys2Proof.Machine
end

