-- ==== Sys2Proof/Machine/LoadStore.lean ====
section
/-! DEFINITION. LW, SW (42_load_store.md). -/

namespace Sys2Proof.Machine

/-- LW (R150): `x[rt] <- MemRead(wrap32(x[rs] + offset), 1);  pc <- pc + 1`; the old base is used when rt = rs. -/
def execLw (rt rs : RegIdx) (offset : Word) (s : State) : Host.Outcome State Fault Refusal :=
  .next (finishReg s rt (loadWord s (effectiveAddress s rs offset)))

/-- SW (R151): `MemWrite(wrap32(x[rs] + offset), 1, x[rt]);  pc <- pc + 1`. -/
def execSw (rt rs : RegIdx) (offset : Word) (s : State) : Host.Outcome State Fault Refusal :=
  .next (advance (storeWord s (effectiveAddress s rs offset) (readReg s rt)))

end Sys2Proof.Machine
end

