-- ==== Sys2Proof/Machine/System.lean ====
section
/-! DEFINITION. CACHE, HALT and the unknown-opcode class (44_system.md). Their notices and CACHE's mode are in `traceOf`. -/

namespace Sys2Proof.Machine

/-- CACHE (R170): codes 0 and 1 write `cache_enabled`, every other code changes nothing; `pc <- pc + 1`. -/
def execCache (code : Word) (s : State) : Host.Outcome State Fault Refusal :=
  .next (advance (applyCacheDirective s (cacheDirective code)))

/-- HALT (R172): `running <- false`; the pc moves by HALT_PC_INC, which is 0 (D8). -/
def execHalt (s : State) : Host.Outcome State Fault Refusal :=
  .next (setPc (setRunning s false) (s.pc + Config.haltPcInc))

/-- Unknown opcode 0x00 (R176). -/
def execUnknown00 (s : State) : Host.Outcome State Fault Refusal := .next (skipUnknown s)

/-- Unknown opcode 0x0C .. 0x0F (R176); the number is only reported. -/
def execUnknown0C0F (_op : BitVec 8) (s : State) : Host.Outcome State Fault Refusal := .next (skipUnknown s)

/-- Unknown opcode 0x10 .. 0x1F (R176); the number is only reported. -/
def execUnknown101F (_op : BitVec 8) (s : State) : Host.Outcome State Fault Refusal := .next (skipUnknown s)

/-- Unknown opcode 0x20 .. 0x3F (R176); the number is only reported. -/
def execUnknown203F (_op : BitVec 8) (s : State) : Host.Outcome State Fault Refusal := .next (skipUnknown s)

/-- Unknown opcode 0x40 .. 0x7F (R176); the number is only reported. -/
def execUnknown407F (_op : BitVec 8) (s : State) : Host.Outcome State Fault Refusal := .next (skipUnknown s)

/-- Unknown opcode 0x80 .. 0xFF (R176); the number is only reported. -/
def execUnknown80FF (_op : BitVec 8) (s : State) : Host.Outcome State Fault Refusal := .next (skipUnknown s)

/-- The unknown opcode tag of a record (R176, 60_exceptions.md R202): its operands play no part. -/
def execUnknownTag (_tag : Token) (s : State) : Host.Outcome State Fault Refusal := .next (skipUnknown s)

end Sys2Proof.Machine
end

