-- ==== Sys2Proof/Machine/Dispatch.lean ====
section
/-! DEFINITION. The opcode dispatcher (40_fetch_decode_dispatch.md R122, R125): one arm per constructor of `Instr`. -/

namespace Sys2Proof.Machine

/-- The effect of one instruction on a state (R122). -/
def exec (i : Instr) (s : State) : Host.Outcome State Fault Refusal :=
  match i with
  | .add rd rs rt => Sys2Proof.Machine.execAdd rd rs rt s
  | .sub rd rs rt => Sys2Proof.Machine.execSub rd rs rt s
  | .addi rt rs imm => Sys2Proof.Machine.execAddi rt rs imm s
  | .lw rt rs offset => Sys2Proof.Machine.execLw rt rs offset s
  | .sw rt rs offset => Sys2Proof.Machine.execSw rt rs offset s
  | .slt rd rs rt => Sys2Proof.Machine.execSlt rd rs rt s
  | .bne rs rt offset => Sys2Proof.Machine.execBne rs rt offset s
  | .j target => Sys2Proof.Machine.execJ target s
  | .jal target => Sys2Proof.Machine.execJal target s
  | .cache code => Sys2Proof.Machine.execCache code s
  | .halt => Sys2Proof.Machine.execHalt s
  | .unknown00 => Sys2Proof.Machine.execUnknown00 s
  | .unknown0C0F op => Sys2Proof.Machine.execUnknown0C0F op s
  | .unknown101F op => Sys2Proof.Machine.execUnknown101F op s
  | .unknown203F op => Sys2Proof.Machine.execUnknown203F op s
  | .unknown407F op => Sys2Proof.Machine.execUnknown407F op s
  | .unknown80FF op => Sys2Proof.Machine.execUnknown80FF op s

end Sys2Proof.Machine
end

