-- ==== Sys2Proof/Machine/Fetch.lean ====
section
/-! DEFINITION. When a step exists, what it fetches, and why none exists (40_fetch_decode_dispatch.md R121; 47_host_interfaces.md
R183, R189; 70_reset_and_hazards.md R240). -/

namespace Sys2Proof.Machine

/-- PROGLEN (R8). -/
def progLen (s : State) : Int := (s.program.length : Int)

/-- CanStep (R121): `fatal = none ∧ running ∧ 0 ≤ pc < PROGLEN`. -/
abbrev canStep (s : State) : Prop := s.fatal = none ∧ s.running = true ∧ 0 ≤ s.pc ∧ s.pc < progLen s

/-- What a machine with this fatal stop, flag, pc and program fetches, or the reason it is stopped (R121, R240). The program
store is never asked for an index outside the program. -/
def fetchFrom (fatal : Option InvalidInfo) (running : Bool) (pc : Int) (program : List Slot) : Except Fault Slot :=
  match fatal with
  | some info => .error (.fatal info)
  | none =>
    if running then
      if pc < 0 then .error .pcBelowZero
      else
        match program[pc.toNat]? with
        | some e => .ok e
        | none => .error .pcPastEnd
    else .error .haltInstr

/-- The fetch of a step (R122, R183): the entry at the pc, or the reason the machine is stopped (R240). -/
def fetch (s : State) : Except Fault Slot := fetchFrom s.fatal s.running s.pc s.program

/-- The status output (R189): none for RUNNING, else the stop reason. -/
def stopReason (s : State) : Option Fault :=
  match fetch s with
  | .ok _ => none
  | .error f => some f

/-- Put an entry at an index of a program, lengthening it with unknown-opcode words as far as needed. -/
def placeSlot : List Slot → Nat → Slot → List Slot
  | [], 0, e => [e]
  | _ :: p, 0, e => e :: p
  | [], n + 1, e => .word 0 :: placeSlot [] n e
  | f :: p, n + 1, e => f :: placeSlot p n e

/-- The state in which the very next step fetches the entry `e`: it stands at the pc (at index 0 if the pc is negative) and
the machine is not stopped. -/
def placeNext (s : State) (e : Slot) : State :=
  { s with
    program := placeSlot s.program s.pc.toNat e
    pc := (s.pc.toNat : Int)
    running := true
    fatal := none }

end Sys2Proof.Machine
end

