-- ==== Sys2Proof/Machine/Cycle.lean ====
section
/-! DEFINITION. One step: fetch, decode, dispatch (40_fetch_decode_dispatch.md R122, R123, R127). -/

namespace Sys2Proof.Machine

/-- The arm a decoded entry takes (R122, R125): an instruction, an unknown tag, or InvalidOperand, which ends the run with
nothing changed but `fatal` (R206). -/
def execDecoded (d : Decoded) (s : State) : Host.Outcome State Fault Refusal :=
  match d with
  | .instr i => exec i s
  | .unknownTag tag => execUnknownTag tag s
  | .invalid info => .next (raiseInvalidOperand info s)

/-- The step (R122): decode happens at each fetch, on the one entry fetched (R123); a stopped state has no step (R121). -/
def cycle (s : State) : Host.Outcome State Fault Refusal :=
  match fetch s with
  | .error f => .fault f
  | .ok e => execDecoded (slotDecode e) s

end Sys2Proof.Machine
end

