-- ==== Sys2Proof/Machine/Step.lean ====
section
/-! DEFINITION. The step function, and a state in which the next step fetches a given instruction word. -/

namespace Sys2Proof.Machine

/-- One step of the machine (40_fetch_decode_dispatch.md R122). -/
def step (s : State) : Host.Outcome State Fault Refusal := cycle s

/-- `s` with the instruction word `w` (its bits from `nbits` up being zero) where the next step fetches (log 3). -/
def State.withFetchWord (s : State) (nbits w : Nat) : State :=
  placeNext s (.word (BitVec.ofNat 64 (w % 2 ^ nbits)))

end Sys2Proof.Machine
end

