-- ==== Sys2Proof/Machine/Datapath.lean ====
section
/-! DEFINITION. The two-phase pc update a hardware datapath may use (40_fetch_decode_dispatch.md R124; 70_reset_and_hazards.md
R246): a handler phase that may overwrite the pc with a compensated value, then a generic incrementer. `exec` does not use it;
that the two agree is an obligation. -/

namespace Sys2Proof.Machine

/-- `pc_h`, the pc the handler leaves (R124). -/
def handlerPc (i : Instr) (s : State) : Int :=
  match i with
  | .add _ _ _ => s.pc
  | .sub _ _ _ => s.pc
  | .addi _ _ _ => s.pc
  | .lw _ _ _ => s.pc
  | .sw _ _ _ => s.pc
  | .slt _ _ _ => s.pc
  | .bne rs rt offset => if registersDiffer s rs rt then s.pc + literalInt offset else s.pc
  | .j target => literalInt target - 1
  | .jal target => literalInt target - 1
  | .cache _ => s.pc
  | .halt => s.pc
  | .unknown00 => s.pc
  | .unknown0C0F _ => s.pc
  | .unknown101F _ => s.pc
  | .unknown203F _ => s.pc
  | .unknown407F _ => s.pc
  | .unknown80FF _ => s.pc

/-- What the incrementer adds after the handler: nothing after HALT, else 1 (R124). -/
def pcIncrement : Instr → Int
  | .halt => 0
  | _ => 1

/-- The pc after both phases (R124). -/
def twoPhasePc (i : Instr) (s : State) : Int := handlerPc i s + pcIncrement i

end Sys2Proof.Machine
end

