-- ==== Sys2Proof/Machine/Loader.lean ====
section
/-! DEFINITION. What the loader hands the machine before the first step (47_host_interfaces.md R181, R182, R190, R191;
20_memory.md R55; 60_exceptions.md R205). The files it reads are out of scope (00_scope.md R5). -/

namespace Sys2Proof.Machine

/-- The initial memory contents (R182): an ordered or an unordered sequence of address and value pairs. -/
inductive MemoryImage where
  | ordered (pairs : List (Int × Int))
  | unordered (pairs : List (Int × Int))
  deriving DecidableEq, Repr

/-- A source that could not be opened, or a memory source that is malformed as a whole (R191, R55, R200 code 1): recovered as
empty input, with a notice. A table that can be read but holds a bad number or a repeat is refused instead (`LaunchRefusal`). -/
inductive MissingSource where
  | program
  | memory
  deriving DecidableEq, Repr

/-- The numeric code of MissingSource (R200, D20). -/
def MissingSource.code : MissingSource → Nat
  | .program => 1
  | .memory => 1

/-- Why the loader refuses its input (D3, D7, U8): no machine is launched. Safe: log 11. -/
inductive LaunchRefusal where
  /-- PROGLEN would exceed 2^31 - 1, the bound of R181; that it is refused is a DESIGN CHOICE (log 11) -/
  | programTooLong
  /-- an address or value of the image is not a word (R55) -/
  | notAWord
  /-- an unordered image repeats an address (R55) -/
  | repeatedAddress
  deriving DecidableEq, Repr

/-- A launched machine and the notices surfaced while loading, one for each missing source; the order of two is the model's
(DESIGN CHOICE, log 18). -/
structure Launched where
  state : State
  notices : List MissingSource
  deriving DecidableEq, Repr

/-- The word an integer is, if it is in the word range (R9). -/
def wordOfInt (v : Int) : Option Word :=
  if -2147483648 ≤ v ∧ v ≤ 2147483647 then some (BitVec.ofInt 32 v) else none

/-- The pairs of an image as words, none if one is not a word (R55). -/
def imageWords : List (Int × Int) → Option (List (Word × Word))
  | [] => some []
  | (a, v) :: ps =>
    match wordOfInt a, wordOfInt v, imageWords ps with
    | some aw, some vw, some rest => some ((aw, vw) :: rest)
    | _, _, _ => none

/-- No address occurs twice. -/
def addressesDistinct : List (Word × Word) → Bool
  | [] => true
  | (a, _) :: ps => !(ps.any fun p => p.1 == a) && addressesDistinct ps

/-- The pairs of an image, in order (R182). -/
def imagePairs : MemoryImage → List (Int × Int)
  | .ordered pairs => pairs
  | .unordered pairs => pairs

/-- MEM0 from an image (R55, R182): in order, the last pair for an address wins. An unordered image with both faults is refused for
the number that is no word (DESIGN CHOICE, log 18). -/
def imageMemory : MemoryImage → Except LaunchRefusal Memory
  | .ordered pairs =>
    match imageWords pairs with
    | some ws => .ok (Memory.load ws)
    | none => .error .notAWord
  | .unordered pairs =>
    match imageWords pairs with
    | some ws => if addressesDistinct ws then .ok (Memory.load ws) else .error .repeatedAddress
    | none => .error .notAWord

/-- MEM0 from a source that may be missing or malformed, which is `none` (R182, R191, R205). -/
def sourceMemory : Option MemoryImage → Except LaunchRefusal Memory
  | none => .ok []
  | some image => imageMemory image

/-- The state a run begins in: reset, with the loaded program and MEM0 (R36, R230). -/
def bootState (program : List Slot) (mem0 : Memory) : State :=
  { State.reset with program := program, mem := mem0 }

/-- The notice of a missing source, if it is missing. -/
def missingNotice {α : Type} (what : MissingSource) : Option α → List MissingSource
  | none => [what]
  | some _ => []

/-- Load and reset (R181, R182, R230, R233): a missing source is empty input and a notice (R205). Operands are not
validated here (R181); decode does that at the fetch (R123). Of two missing sources the program's notice stands first, and of a bad
image with a too long program the image's refusal is given: both are a DESIGN CHOICE (log 18), since R205 orders no notices and R233
lets the loader do the program and the image in either order. -/
def launch (program : Option (List Slot)) (image : Option MemoryImage) : Except LaunchRefusal Launched :=
  match sourceMemory image with
  | .error r => .error r
  | .ok mem0 =>
    if (program.getD []).length ≤ Config.progLenMax then
      .ok { state := bootState (program.getD []) mem0
            notices := missingNotice .program program ++ missingNotice .memory image }
    else .error .programTooLong

end Sys2Proof.Machine
end

