-- ==== Sys2Proof/Machine/Trace.lean ====
section
/-! DEFINITION. The trace event of a step and the error codes (47_host_interfaces.md R185, R186; 40_fetch_decode_dispatch.md R128;
60_exceptions.md R200, R202 to R204). The trace is an output, not state (10_state.md R34): it is a function of the state before the
step (R126), and nothing of the machine reads it (log 6). -/

namespace Sys2Proof.Machine

/-- The resulting mode of a CACHE step (R186). -/
inductive CacheMode where
  | disabled
  | enabled
  | flush
  deriving DecidableEq, Repr

/-- The tag an UnknownOpcode notice records (R202): as stored at the record level, the `op` value at the word level. -/
inductive UnknownTag where
  | name (tag : Token)
  | number (op : BitVec 8)
  deriving DecidableEq, Repr

/-- A condition attached to a step's trace event (R200, R203); the pc it records is the event's. -/
inductive Notice where
  | unknownOpcode (tag : UnknownTag)
  | unknownCacheCode (code : Word)
  | invalidOperand (info : InvalidInfo)
  deriving DecidableEq, Repr

/-- The numeric code of a condition (R200, D20). MissingSource, code 1, is the loader's (`MissingSource.code`). -/
def Notice.code : Notice → Nat
  | .unknownOpcode _ => 2
  | .unknownCacheCode _ => 3
  | .invalidOperand _ => 4

/-- The code of what a step may report: 0 is "none" (R200, D20). -/
def noticeCode : Option Notice → Nat
  | none => 0
  | some n => n.code

/-- The code a stop reason has on the status interface (R200, R189): InvalidOperand's for a fatal stop, 0 for the stops that are
no condition. -/
def faultCode : Fault → Nat
  | .haltInstr => 0
  | .pcPastEnd => 0
  | .pcBelowZero => 0
  | .fatal info => (Notice.invalidOperand info).code

/-- The code on the status interface (R200, R189): 0 while the machine runs (log 17). -/
def statusCode (s : State) : Nat :=
  match stopReason s with
  | none => 0
  | some f => faultCode f

/-- The condition is fatal (R200, R13). -/
def Notice.isFatal : Notice → Bool
  | .unknownOpcode _ => false
  | .unknownCacheCode _ => false
  | .invalidOperand _ => true

/-- The trace event of one step (R185). -/
structure TraceEvent where
  /-- the index of the instruction of this step -/
  pc : Int
  /-- the entry fetched, as stored, undecoded (R128) -/
  slot : Slot
  /-- BNE, J, JAL: the resolved target, for an untaken BNE as well (D18) -/
  target : Option Int
  /-- BNE: whether the registers differ -/
  taken : Option Bool
  /-- CACHE 0, 1, 2 -/
  mode : Option CacheMode
  /-- the condition raised, at most one (R203, R209) -/
  notice : Option Notice
  /-- LW, SW: the effective address -/
  addr : Option Word
  deriving DecidableEq, Repr

/-- The code on the trace interface (R200): 0 for a step that raises nothing. -/
def TraceEvent.code (ev : TraceEvent) : Nat := noticeCode ev.notice

/-- The part of an event every step has (R128). -/
def bareEvent (s : State) (e : Slot) : TraceEvent where
  pc := s.pc
  slot := e
  target := none
  taken := none
  mode := none
  notice := none
  addr := none

/-- The mode or the notice of a CACHE code (R170, R186, R204). -/
def cacheEvent (ev : TraceEvent) (code : Word) : TraceEvent :=
  match cacheDirective code with
  | .disable => { ev with mode := some .disabled }
  | .enable => { ev with mode := some .enabled }
  | .flush => { ev with mode := some .flush }
  | .unknownCode => { ev with notice := some (.unknownCacheCode code) }

/-- The notice of an unknown `op` number (R202). -/
def unknownNumberEvent (ev : TraceEvent) (op : BitVec 8) : TraceEvent :=
  { ev with notice := some (.unknownOpcode (.number op)) }

/-- The parts an instruction adds to its event (R185), from the state before the step. -/
def instrEvent (s : State) (ev : TraceEvent) (i : Instr) : TraceEvent :=
  match i with
  | .add _ _ _ => ev
  | .sub _ _ _ => ev
  | .addi _ _ _ => ev
  | .lw _ rs offset => { ev with addr := some (effectiveAddress s rs offset) }
  | .sw _ rs offset => { ev with addr := some (effectiveAddress s rs offset) }
  | .slt _ _ _ => ev
  | .bne rs rt offset => { ev with target := some (branchTarget s offset), taken := some (registersDiffer s rs rt) }
  | .j target => { ev with target := some (jumpTarget target) }
  | .jal target => { ev with target := some (jumpTarget target) }
  | .cache code => cacheEvent ev code
  | .halt => ev
  | .unknown00 => unknownNumberEvent ev 0
  | .unknown0C0F op => unknownNumberEvent ev op
  | .unknown101F op => unknownNumberEvent ev op
  | .unknown203F op => unknownNumberEvent ev op
  | .unknown407F op => unknownNumberEvent ev op
  | .unknown80FF op => unknownNumberEvent ev op

/-- The event of a step that fetches the entry `e` (R185). -/
def slotEvent (s : State) (e : Slot) : TraceEvent :=
  match slotDecode e with
  | .instr i => instrEvent s (bareEvent s e) i
  | .unknownTag tag => { bareEvent s e with notice := some (.unknownOpcode (.name tag)) }
  | .invalid info => { bareEvent s e with notice := some (.invalidOperand info) }

/-- The trace event of the step from `s`: one for every step, none when no step exists (R180, R185). -/
def traceOf (s : State) : Option TraceEvent :=
  match fetch s with
  | .ok e => some (slotEvent s e)
  | .error _ => none

/-- The events of at most `n` steps from `s`, in order. -/
def traceRun : Nat → State → List TraceEvent
  | 0, _ => []
  | n + 1, s =>
    match traceOf s with
    | none => []
    | some ev =>
      match cycle s with
      | .next t => ev :: traceRun n t
      | .fault _ => [ev]
      | .refused _ => [ev]

end Sys2Proof.Machine
end

