-- ==== Sys2Proof/Machine/Report.lean ====
section
/-! DEFINITION. What is read from the machine: the final state when it has stopped, and the status interface (47_host_interfaces.md
R188, R189; decision D26). -/

namespace Sys2Proof.Machine

/-- The final state handed to the reporter (R188): all 32 registers, zeros included, and the memory snapshot in ascending
signed order of address, unset addresses omitted. -/
structure FinalReport where
  registers : List Int
  snapshot : List (Int × Int)
  deriving DecidableEq, Repr

/-- The set addresses with their values, as signed integers (R188); the list is in ascending order (`Memory.wf`). -/
def snapshotOf (m : Memory) : List (Int × Int) := m.map fun p => (p.1.toInt, p.2.toInt)

/-- What the registers and the memory hold, as a report. -/
def contentsOf (s : State) : FinalReport :=
  { registers := s.regs.toList.map BitVec.toInt, snapshot := snapshotOf s.mem }

/-- The final state: read only when the machine has stopped without a fatal stop (R188, D26). -/
def finalReport (s : State) : Option FinalReport :=
  match stopReason s with
  | none => none
  | some (.fatal _) => none
  | some _ => some (contentsOf s)

/-- The status interface (R188, R189, R200). In which states it shows each field the spec leaves open: DESIGN CHOICE, log 17. -/
structure StatusReport where
  /-- none for RUNNING, else the stop reason (R189) -/
  stop : Option Fault
  /-- the numeric code of the condition that ended the run, 0 for none (R200) -/
  code : Nat
  /-- the pc, for a debugger (R188) -/
  pc : Int
  /-- the flag `running`, for a debugger (R188) -/
  running : Bool
  /-- the flag `cache_enabled`, for a debugger (R188; against R186's "the only place", DESIGN CHOICE: log 16) -/
  cacheEnabled : Bool
  /-- the registers and memory of a stopped machine, readable after a fatal stop as well, and no final state there (D26, R190) -/
  frozen : Option FinalReport
  deriving DecidableEq, Repr

/-- What the status interface shows in a state. The status is given in every state, RUNNING being one of its values (R189). That the
code, the pc, `running` and `cache_enabled` are shown in every state too, a running machine's included, is a DESIGN CHOICE (log 17):
R188 puts the last three beside that status for a debugger and does not say when, R180 and R190 have the status read after the stop.
The registers and the memory are shown of a stopped machine alone (R180, R190). -/
def statusReport (s : State) : StatusReport where
  stop := stopReason s
  code := statusCode s
  pc := s.pc
  running := s.running
  cacheEnabled := s.cacheEnabled
  frozen := (stopReason s).map fun _ => contentsOf s

end Sys2Proof.Machine
end

