-- ==== Sys2Proof/Machine/Unbounded.lean ====
section
/-! DEFINITION. The source's machine on unbounded signed integers (00_scope.md R9, R12; 41_arithmetic_compare.md R144): the same
step without wrap32 and without a range on literals and memory entries. `exec` does not use it; that the two agree under the
premise NoOverflow is an obligation (DEDUCED from R12: log 15). -/

namespace Sys2Proof.Machine

/-- An instruction whose literals have no width. -/
inductive SourceInstr where
  | add (rd rs rt : RegIdx)
  | sub (rd rs rt : RegIdx)
  | addi (rt rs : RegIdx) (imm : Int)
  | lw (rt rs : RegIdx) (offset : Int)
  | sw (rt rs : RegIdx) (offset : Int)
  | slt (rd rs rt : RegIdx)
  | bne (rs rt : RegIdx) (offset : Int)
  | j (target : Int)
  | jal (target : Int)
  | cache (code : Int)
  | halt
  deriving DecidableEq, Repr

/-- What decoding gives (30_encoding.md R89), without the text of an unknown tag, which no state holds. -/
inductive SourceDecoded where
  | instr (i : SourceInstr)
  | unknown
  | invalid (info : InvalidInfo)
  deriving DecidableEq, Repr

/-- A decoded instruction with its literals as integers (R103). -/
def sourceInstr : Instr → SourceDecoded
  | .add rd rs rt => .instr (.add rd rs rt)
  | .sub rd rs rt => .instr (.sub rd rs rt)
  | .addi rt rs imm => .instr (.addi rt rs imm.toInt)
  | .lw rt rs offset => .instr (.lw rt rs offset.toInt)
  | .sw rt rs offset => .instr (.sw rt rs offset.toInt)
  | .slt rd rs rt => .instr (.slt rd rs rt)
  | .bne rs rt offset => .instr (.bne rs rt offset.toInt)
  | .j target => .instr (.j target.toInt)
  | .jal target => .instr (.jal target.toInt)
  | .cache code => .instr (.cache code.toInt)
  | .halt => .instr .halt
  | .unknown00 => .unknown
  | .unknown0C0F _ => .unknown
  | .unknown101F _ => .unknown
  | .unknown203F _ => .unknown
  | .unknown407F _ => .unknown
  | .unknown80FF _ => .unknown

/-- A decoded value with its literals as integers. -/
def sourceDecoded : Decoded → SourceDecoded
  | .instr i => sourceInstr i
  | .unknownTag _ => .unknown
  | .invalid info => .invalid info

/-- An integer literal of any size (R87 without its range). -/
def sourceLiteral (t : Token) : Except OperandFault Int :=
  match literalValue t with
  | none => .error .malformedLiteral
  | some v => .ok v

/-- The operands of a recognised opcode (R82, R83, R89), literals of any size. -/
def sourceOperands (o : Opcode) (ts : List Token) : Except InvalidInfo SourceInstr :=
  match o with
  | .add => recordR3 .add ts
  | .sub => recordR3 .sub ts
  | .addi => recordRI sourceLiteral .addi ts
  | .lw => recordM (parseMemoryWith sourceLiteral) .lw ts
  | .sw => recordM (parseMemoryWith sourceLiteral) .sw ts
  | .slt => recordR3 .slt ts
  | .bne => recordRI sourceLiteral .bne ts
  | .j => recordI sourceLiteral .j ts
  | .jal => recordI sourceLiteral .jal ts
  | .cache => recordI sourceLiteral .cache ts
  | .halt => recordN .halt ts

/-- Decoding an entry of the program; a word's literals have a width, a record's have none. -/
def sourceDecode : Slot → SourceDecoded
  | .word w => sourceDecoded (wordDecode w)
  | .record r =>
    match opcodeOfTag r.opcode with
    | none => .unknown
    | some o =>
      match sourceOperands o r.operands with
      | .ok i => .instr i
      | .error info => .invalid info

/-! ## State and memory -/

/-- A mapping from integer address to integer value (10_state.md R30), its addresses ascending. -/
abbrev SourceMemory := List (Int × Int)

/-- The state of R38 on unbounded integers. -/
structure SourceState where
  regs : Vector Int 32
  pc : Int
  running : Bool
  cacheEnabled : Bool
  fatal : Option InvalidInfo
  mem : SourceMemory
  program : List Slot
  deriving DecidableEq, Repr

/-- The value an address is set to. -/
def SourceMemory.lookup : SourceMemory → Int → Option Int
  | [], _ => none
  | (b, v) :: m, a => if a = b then some v else SourceMemory.lookup m a

/-- "Reading an unset address returns 0" (20_memory.md R52). -/
def SourceMemory.read (m : SourceMemory) (a : Int) : Int := (SourceMemory.lookup m a).getD 0

/-- "writing always inserts-or-updates" (20_memory.md R53). -/
def SourceMemory.write : SourceMemory → Int → Int → SourceMemory
  | [], a, v => [(a, v)]
  | (b, u) :: m, a, v =>
    if a = b then (a, v) :: m
    else if a < b then (a, v) :: (b, u) :: m
    else (b, u) :: SourceMemory.write m a v

/-- `load` (R50, R55): the pairs as they stand, in order. -/
def SourceMemory.load (pairs : List (Int × Int)) : SourceMemory :=
  pairs.foldl (fun m p => SourceMemory.write m p.1 p.2) []

/-! ## The step -/

/-- Write a result register and go to the next instruction. -/
def sourceFinish (s : SourceState) (r : RegIdx) (v : Int) : SourceState :=
  { s with regs := s.regs.set r v, pc := s.pc + 1 }

/-- The source's effect of each opcode (R140 to R172, their lines "The source"), on integers of no width. -/
def sourceEffect (i : SourceInstr) (s : SourceState) : SourceState :=
  match i with
  | .add rd rs rt => sourceFinish s rd (s.regs.get rs + s.regs.get rt)
  | .sub rd rs rt => sourceFinish s rd (s.regs.get rs - s.regs.get rt)
  | .addi rt rs imm => sourceFinish s rt (s.regs.get rs + imm)
  | .lw rt rs offset => sourceFinish s rt (SourceMemory.read s.mem (s.regs.get rs + offset))
  | .sw rt rs offset =>
    { s with mem := SourceMemory.write s.mem (s.regs.get rs + offset) (s.regs.get rt), pc := s.pc + 1 }
  | .slt rd rs rt => sourceFinish s rd (if s.regs.get rs < s.regs.get rt then 1 else 0)
  | .bne rs rt offset => { s with pc := if s.regs.get rs ≠ s.regs.get rt then s.pc + 1 + offset else s.pc + 1 }
  | .j target => { s with pc := target }
  | .jal target => { s with regs := s.regs.set Config.link (s.pc + 1), pc := target }
  | .cache code =>
    { s with
      cacheEnabled := if code = 0 then false else if code = 1 then true else s.cacheEnabled
      pc := s.pc + 1 }
  | .halt => { s with running := false, pc := s.pc + Config.haltPcInc }

/-- One step on unbounded integers, or why there is none (R121, R122). -/
def sourceStep (s : SourceState) : Except Fault SourceState :=
  match fetchFrom s.fatal s.running s.pc s.program with
  | .error f => .error f
  | .ok e =>
    match sourceDecode e with
    | .instr i => .ok (sourceEffect i s)
    | .unknown => .ok { s with pc := s.pc + 1 }
    | .invalid info => .ok { s with fatal := some info }

/-- At most `n` steps on unbounded integers, ending at the first stop. -/
def sourceRun : Nat → SourceState → Except Fault SourceState
  | 0, s => .ok s
  | n + 1, s =>
    match sourceStep s with
    | .ok t => sourceRun n t
    | .error f => .error f

/-- A state read as one on unbounded integers. -/
def sourceOf (s : State) : SourceState where
  regs := s.regs.map BitVec.toInt
  pc := s.pc
  running := s.running
  cacheEnabled := s.cacheEnabled
  fatal := s.fatal
  mem := snapshotOf s.mem
  program := s.program

/-- MEM0 with its numbers as they stand; empty when the source is missing (R55, R191). -/
def sourceMem0 : Option MemoryImage → SourceMemory
  | none => []
  | some image => SourceMemory.load (imagePairs image)

/-- The state a run on unbounded integers begins in: reset, with the program and the image as they stand (R36, R55, R191). -/
def sourceBoot (program : Option (List Slot)) (image : Option MemoryImage) : SourceState :=
  { sourceOf State.reset with
    program := program.getD []
    mem := sourceMem0 image }

end Sys2Proof.Machine
end

