-- ==== Sys2Proof/Safety.lean ====
section
/-! DEFINITION. The terms claims use: final and gone-wrong states (70_reset_and_hazards.md R240, 60_exceptions.md R207), the premise
NoOverflow (00_scope.md R12), what is true of every state a run reaches, and when two machines run alike. -/

namespace Sys2Proof.Machine

/-- A final state, in the sense a claim may speak of: stopped by HALT or past the end (R240). -/
abbrev isFinal (s : State) : Prop := stopReason s = some .haltInstr ∨ stopReason s = some .pcPastEnd

/-- "Gone wrong": a fatal stop (R207). -/
abbrev goneWrong (s : State) : Prop := s.fatal ≠ none

/-- An integer in the word range (R9). -/
abbrev inWordRange (v : Int) : Prop := -2147483648 ≤ v ∧ v ≤ 2147483647

/-- What NoOverflow (R12) asks of one instruction of a run (`runNoOverflow` asks it of every step): it computes no sum, difference or address outside the word range. -/
def noOverflow (i : Instr) (s : State) : Prop :=
  match i with
  | .add _ rs rt => inWordRange (regInt s rs + regInt s rt)
  | .sub _ rs rt => inWordRange (regInt s rs - regInt s rt)
  | .addi _ rs imm => inWordRange (regInt s rs + literalInt imm)
  | .lw _ rs offset => inWordRange (regInt s rs + literalInt offset)
  | .sw _ rs offset => inWordRange (regInt s rs + literalInt offset)
  | _ => True

/-- Every launch bound and every range of the state (R8, R22, R30): memory in canonical form, PROGLEN at most 2^31 - 1, the pc in
-2^31 .. 2^32 - 2, the values PCW = 33 signed bits hold. -/
abbrev InRange (s : State) : Prop :=
  Memory.wf s.mem = true ∧ s.program.length ≤ Config.progLenMax ∧ -2147483648 ≤ s.pc ∧ s.pc ≤ 4294967294

/-- The entry at the pc, when the pc is in the program. -/
def slotAtPc (s : State) : Option Slot := if 0 ≤ s.pc then s.program[s.pc.toNat]? else none

/-- The entry at the pc decodes to `d`. -/
def atPc (s : State) (d : Decoded) : Prop := ∃ e, slotAtPc s = some e ∧ slotDecode e = d

/-- A fatal stop leaves the pc at the malformed entry, with the entry's own sub-cause, and `running` true (R206, R241). -/
def FatalAtCulprit (s : State) : Prop := ∀ info, s.fatal = some info → s.running = true ∧ atPc s (.invalid info)

/-- A halted machine's pc is the index of the HALT (R172, R241; the spec's decision D8). -/
def HaltedAtHalt (s : State) : Prop := s.running = false → s.fatal = none ∧ atPc s (.instr .halt)

/-- What holds of every state a run from a launch reaches. -/
def RunInv (s : State) : Prop := InRange s ∧ FatalAtCulprit s ∧ HaltedAtHalt s

/-- At most `n` steps from a state, ending at the first stop (40_fetch_decode_dispatch.md R130: a run has no bound of its own). -/
def runSteps (n : Nat) (s : State) : Host.Outcome State Fault Refusal := Host.Core.run Sys2Proof.core n s

/-- The three kinds of operand token (30_encoding.md R82). -/
inductive OperandKind where
  | register
  | literal
  | memory
  deriving DecidableEq, Repr

/-- The operand shapes (R82); their number is the arity (R83). -/
def operandKinds : Opcode → List OperandKind
  | .add => [.register, .register, .register]
  | .sub => [.register, .register, .register]
  | .addi => [.register, .register, .literal]
  | .lw => [.register, .memory]
  | .sw => [.register, .memory]
  | .slt => [.register, .register, .register]
  | .bne => [.register, .register, .literal]
  | .j => [.literal]
  | .jal => [.literal]
  | .cache => [.literal]
  | .halt => []

/-- The literal of a token, alone (R87) or before the parenthesis of a memory token (R88), is in the word range if it is one. -/
def tokenLiteralInRange (k : OperandKind) (t : Token) : Prop :=
  match k with
  | .register => True
  | .literal => ∀ v, literalValue t = some v → inWordRange v
  | .memory => ∀ before after v, splitAtOpen t = some (before, after) → literalValue before = some v → inWordRange v

/-- Every literal of an entry of the program is in the word range (R12): a word's is by its width; a record's stand where the
operand shapes of its opcode have them. -/
def literalsInRange : Slot → Prop
  | .word _ => True
  | .record r => ∀ o, opcodeOfTag r.opcode = some o → ∀ p ∈ (operandKinds o).zip r.operands, tokenLiteralInRange p.1 p.2

/-- Every MEM0 entry is in the word range (R12). -/
def imageInRange (image : Option MemoryImage) : Prop :=
  ∀ im, image = some im → ∀ p ∈ imagePairs im, inWordRange p.1 ∧ inWordRange p.2

/-- No instruction that the run from a state executes leaves the word range (R12). -/
def stepsNoOverflow (s : State) : Prop :=
  ∀ n t i, runSteps n s = .next t → canStep t → atPc t (.instr i) → noOverflow i t

/-- NoOverflow (R12), of the run of a program and a memory image: every literal and every MEM0 entry is in the word range, and so
is every sum, difference and address the run computes. -/
def runNoOverflow (program : Option (List Slot)) (image : Option MemoryImage) : Prop :=
  imageInRange image ∧ (∀ e ∈ program.getD [], literalsInRange e) ∧
  ∀ l, launch program image = .ok l → stepsNoOverflow l.state

/-- The register an instruction writes, if it writes one (10_state.md R40). -/
def writesReg : Instr → Option RegIdx
  | .add rd _ _ => some rd
  | .sub rd _ _ => some rd
  | .addi rt _ _ => some rt
  | .lw rt _ _ => some rt
  | .sw _ _ _ => none
  | .slt rd _ _ => some rd
  | .bne _ _ _ => none
  | .j _ => none
  | .jal _ => some Config.link
  | .cache _ => none
  | .halt => none
  | .unknown00 => none
  | .unknown0C0F _ => none
  | .unknown101F _ => none
  | .unknown203F _ => none
  | .unknown407F _ => none
  | .unknown80FF _ => none

/-- Two decoded values that make the same step: equal but for the payloads of unknown and invalid (30_encoding.md R109). -/
def sameMeaning (d e : Decoded) : Prop :=
  match d, e with
  | .instr i, .instr k => i = k ∨ (isCore i = false ∧ isCore k = false)
  | .instr i, .unknownTag _ => isCore i = false
  | .unknownTag _, .instr k => isCore k = false
  | .unknownTag _, .unknownTag _ => True
  | .invalid _, .invalid _ => True
  | .instr _, .invalid _ => False
  | .unknownTag _, .invalid _ => False
  | .invalid _, .instr _ => False
  | .invalid _, .unknownTag _ => False

/-- Two states that agree on everything but the spelling of the program and the payload of a fatal stop (R109): the programs
have entries of the same meaning, index by index. -/
def runsAlike (s t : State) : Prop :=
  s.regs = t.regs ∧ s.pc = t.pc ∧ s.running = t.running ∧ s.cacheEnabled = t.cacheEnabled ∧
  s.fatal.isSome = t.fatal.isSome ∧ s.mem = t.mem ∧
  List.Forall₂ (fun d e => sameMeaning (slotDecode d) (slotDecode e)) s.program t.program

/-! ## The terms in which single instructions are stated -/

/-- The value of wrap32 by its formula, `((z + 2^31) mod 2^32) − 2^31` with the non-negative remainder (R9). -/
def wrapInt (z : Int) : Int := (z + 2147483648) % 4294967296 - 2147483648

/-- The word with the given field values and `z` = 0, by R107's sum. -/
def wordOf (op a b c imm : Nat) : InstrWord :=
  BitVec.ofNat 64 (op * 2 ^ 56 + a * 2 ^ 51 + b * 2 ^ 46 + c * 2 ^ 41 + imm)

/-- Every register is as before. -/
def keepsRegs (s t : State) : Prop := ∀ q, regInt t q = regInt s q

/-- Every register but `r` is as before. -/
def keepsRegsBut (r : RegIdx) (s t : State) : Prop := ∀ q, q ≠ r → regInt t q = regInt s q

/-- Every data address is set as before and reads as before. -/
def keepsMemory (s t : State) : Prop :=
  ∀ a, Memory.lookup t.mem a = Memory.lookup s.mem a ∧ Memory.read t.mem a = Memory.read s.mem a

/-- Every data address but `b` is set as before and reads as before. -/
def keepsMemoryBut (b : Word) (s t : State) : Prop :=
  ∀ a, a ≠ b → Memory.lookup t.mem a = Memory.lookup s.mem a ∧ Memory.read t.mem a = Memory.read s.mem a

/-- The flags, the fatal stop and the program are as before. -/
def keepsControl (s t : State) : Prop :=
  t.running = s.running ∧ t.cacheEnabled = s.cacheEnabled ∧ t.fatal = s.fatal ∧ t.program = s.program

/-- Nothing differs but, it may be, the pc. -/
def keepsAllButPc (s t : State) : Prop := keepsRegs s t ∧ keepsMemory s t ∧ keepsControl s t

/-- The registers an instruction reads (10_state.md R40). -/
def readsRegs : Instr → List RegIdx
  | .add _ rs rt => [rs, rt]
  | .sub _ rs rt => [rs, rt]
  | .addi _ rs _ => [rs]
  | .lw _ rs _ => [rs]
  | .sw rt rs _ => [rs, rt]
  | .slt _ rs rt => [rs, rt]
  | .bne rs rt _ => [rs, rt]
  | .j _ => []
  | .jal _ => []
  | .cache _ => []
  | .halt => []
  | .unknown00 => []
  | .unknown0C0F _ => []
  | .unknown101F _ => []
  | .unknown203F _ => []
  | .unknown407F _ => []
  | .unknown80FF _ => []

/-! ## The record level's grammar -/

/-- What is wrong with a token of a kind, none if nothing is (R86, R87, R88). -/
def tokenFault (k : OperandKind) (t : Token) : Option OperandFault :=
  match k with
  | .register => match parseRegister t with | .ok _ => none | .error f => some f
  | .literal => match parseLiteral t with | .ok _ => none | .error f => some f
  | .memory => match parseMemory t with | .ok _ => none | .error f => some f

/-- One or more characters `0` to `9` (R86, R87). -/
def isDigits (ds : Token) : Prop := ds ≠ [] ∧ ∀ c ∈ ds, 48 ≤ c.toNat ∧ c.toNat ≤ 57

/-- The decimal number a sequence of digits writes. -/
def decimalValue (ds : Token) : Nat := ds.foldl (fun n c => 10 * n + (c.toNat - 48)) 0

/-- The opcode of one of the eleven instructions (R2). -/
def opcodeOf : Instr → Option Opcode
  | .add _ _ _ => some .add
  | .sub _ _ _ => some .sub
  | .addi _ _ _ => some .addi
  | .lw _ _ _ => some .lw
  | .sw _ _ _ => some .sw
  | .slt _ _ _ => some .slt
  | .bne _ _ _ => some .bne
  | .j _ => some .j
  | .jal _ => some .jal
  | .cache _ => some .cache
  | .halt => some .halt
  | .unknown00 => none
  | .unknown0C0F _ => none
  | .unknown101F _ => none
  | .unknown203F _ => none
  | .unknown407F _ => none
  | .unknown80FF _ => none

/-- The tokens are three register tokens of these registers, in this order (R82). -/
def tokensR3 (r1 r2 r3 : RegIdx) (ts : List Token) : Prop :=
  ∃ t1 t2 t3, ts = [t1, t2, t3] ∧ parseRegister t1 = .ok r1 ∧ parseRegister t2 = .ok r2 ∧ parseRegister t3 = .ok r3

/-- The tokens are two register tokens and a literal of these values (R82). -/
def tokensRI (r1 r2 : RegIdx) (v : Word) (ts : List Token) : Prop :=
  ∃ t1 t2 t3, ts = [t1, t2, t3] ∧ parseRegister t1 = .ok r1 ∧ parseRegister t2 = .ok r2 ∧ parseLiteral t3 = .ok v

/-- The tokens are a register token and a memory token of these values (R82). -/
def tokensM (r1 rs : RegIdx) (offset : Word) (ts : List Token) : Prop :=
  ∃ t1 t2, ts = [t1, t2] ∧ parseRegister t1 = .ok r1 ∧ parseMemory t2 = .ok (offset, rs)

/-- The tokens are one literal of this value (R82). -/
def tokensI (v : Word) (ts : List Token) : Prop := ∃ t1, ts = [t1] ∧ parseLiteral t1 = .ok v

/-- The operand tokens give the instruction's operands, in the order and the roles of the table of R82. -/
def tokensGive (i : Instr) (ts : List Token) : Prop :=
  match i with
  | .add rd rs rt => tokensR3 rd rs rt ts
  | .sub rd rs rt => tokensR3 rd rs rt ts
  | .addi rt rs imm => tokensRI rt rs imm ts
  | .lw rt rs offset => tokensM rt rs offset ts
  | .sw rt rs offset => tokensM rt rs offset ts
  | .slt rd rs rt => tokensR3 rd rs rt ts
  | .bne rs rt offset => tokensRI rs rt offset ts
  | .j target => tokensI target ts
  | .jal target => tokensI target ts
  | .cache code => tokensI code ts
  | .halt => ts = []
  | .unknown00 => False
  | .unknown0C0F _ => False
  | .unknown101F _ => False
  | .unknown203F _ => False
  | .unknown407F _ => False
  | .unknown80FF _ => False

/-- The two encodings an instruction rule gives: a record with this tag and tokens of the operands (R82), and the word with these
field values, its `z` zero (R101, R107). -/
def encodedAs (i : Instr) (tag : Token) (op a b c imm : Nat) : Prop :=
  (∀ ts, tokensGive i ts → recordDecode ⟨tag, ts⟩ = .instr i) ∧
  encode i = wordOf op a b c imm ∧ wordDecode (wordOf op a b c imm) = .instr i

/-- The must-be-zero fields of a word whose `op` names the opcode hold a one somewhere (30_encoding.md R101, R104). -/
def mbzViolated (o : Opcode) (w : InstrWord) : Prop :=
  zField w ≠ 0 ∨
  match o with
  | .add => immField w ≠ 0
  | .sub => immField w ≠ 0
  | .slt => immField w ≠ 0
  | .addi => cField w ≠ 0
  | .lw => cField w ≠ 0
  | .sw => cField w ≠ 0
  | .bne => cField w ≠ 0
  | .j => aField w ≠ 0 ∨ bField w ≠ 0 ∨ cField w ≠ 0
  | .jal => aField w ≠ 0 ∨ bField w ≠ 0 ∨ cField w ≠ 0
  | .cache => aField w ≠ 0 ∨ bField w ≠ 0 ∨ cField w ≠ 0
  | .halt => aField w ≠ 0 ∨ bField w ≠ 0 ∨ cField w ≠ 0 ∨ immField w ≠ 0

end Sys2Proof.Machine
end

