-- ==== Sys2Proof/Certificates/Slice0/Obligations.lean ====
section
/-! DEFINITION. The statements for the provers. Each docstring names the rule of spec/ or the section it formalises; "decision
D<n>" is a choice the spec itself makes in 92_eei_decisions.md. -/

open Sys2Proof Sys2Proof.Machine

/-! ## Reset and launch -/

/-- R36: the value of every piece of state when the first step may begin, for every program and every MEM0. (`cache_enabled` and
`fatal` start as decisions D5 and D15 say.) `State.reset` is this state with an empty program and an empty MEM0 (log 3). -/
def Obligations.ResetValues : Prop :=
  ∀ (program : List Slot) (mem0 : Memory),
    (∀ q, regInt (bootState program mem0) q = 0) ∧
    (bootState program mem0).pc = 0 ∧
    (bootState program mem0).running = true ∧
    (bootState program mem0).cacheEnabled = false ∧
    (bootState program mem0).fatal = none ∧
    (bootState program mem0).mem = mem0 ∧
    (bootState program mem0).program = program ∧
    progLen (bootState program mem0) = program.length ∧
    (∀ a : Word, Memory.lookup mem0 a = none → Memory.read (bootState program mem0).mem a = 0) ∧
    State.reset = bootState [] []

/-- 20_memory.md section 1: an ordered image of words is loaded in order, so each address holds the value of its last pair and an
address in no pair is unset; the machine is in the reset state otherwise, and its memory is in canonical form. -/
def Obligations.LaunchLoadsLastPair : Prop :=
  ∀ (program : List Slot) (pairs : List (Int × Int)),
    program.length ≤ Config.progLenMax →
    (∀ p ∈ pairs, inWordRange p.1 ∧ inWordRange p.2) →
    ∃ mem0, launch (some program) (some (.ordered pairs)) = .ok ⟨bootState program mem0, []⟩ ∧
      Memory.wf mem0 = true ∧
      ∀ a : Word, (Memory.lookup mem0 a).map BitVec.toInt =
        (pairs.reverse.find? fun p => p.1 == a.toInt).map fun p => p.2

/-- 20_memory.md section 1 (decision D7): the loader refuses an image with a number that is not a word, and an unordered image that
repeats an address. That it also refuses a program longer than 2^31 - 1, with any image it accepts, is the model's DESIGN CHOICE
(log 11): 47_host_interfaces.md only bounds PROGLEN. So is which refusal bad input of two kinds gets (log 18): a number that is not a
word before a repeat, and the image's refusal before the program's. -/
def Obligations.LaunchRefusesBadInput : Prop :=
  (∀ (program : Option (List Slot)) (pairs : List (Int × Int)),
    (∃ p ∈ pairs, ¬ inWordRange p.1 ∨ ¬ inWordRange p.2) →
    launch program (some (.ordered pairs)) = .error .notAWord ∧
    launch program (some (.unordered pairs)) = .error .notAWord) ∧
  (∀ (program : Option (List Slot)) (pairs : List (Int × Int)),
    (∀ p ∈ pairs, inWordRange p.1 ∧ inWordRange p.2) →
    ¬ (pairs.map fun p => p.1).Nodup →
    launch program (some (.unordered pairs)) = .error .repeatedAddress) ∧
  (∀ (program : List Slot) (image : Option MemoryImage) (mem0 : Memory), sourceMemory image = .ok mem0 →
    Config.progLenMax < program.length → launch (some program) image = .error .programTooLong)

/-- R191: a missing source is empty input and a notice; the engine sees an empty program or an empty MEM0, and execution does
not abort. The order of two notices, which the rule leaves open, is left open here (`LaunchResult` states the model's). -/
def Obligations.MissingSourceIsEmptyInput : Prop :=
  (∃ notices, launch none none = .ok ⟨bootState [] [], notices⟩ ∧ notices.Perm [.program, .memory]) ∧
  (∀ program : List Slot, program.length ≤ Config.progLenMax →
    launch (some program) none = .ok ⟨bootState program [], [.memory]⟩) ∧
  (∀ (image : MemoryImage) (mem0 : Memory), imageMemory image = .ok mem0 →
    launch none (some image) = .ok ⟨bootState [] mem0, [.program]⟩) ∧
  (∀ mem0 : Memory, step (bootState [] mem0) = .fault .pcPastEnd) ∧
  (∀ (program : List Slot) (a : Word), Memory.read (bootState program []).mem a = 0)

/-- 47_host_interfaces.md, program load and memory load, with 70_reset_and_hazards.md section 2: whichever sources are missing, a
launch with a program within the bound and an image that gives a MEM0 answers the reset state with them and one notice for each
missing source. That the program's notice stands before the memory's is the model's DESIGN CHOICE (log 18): the spec lets the loader
do the two in either order. -/
def Obligations.LaunchResult : Prop :=
  ∀ (program : Option (List Slot)) (image : Option MemoryImage) (mem0 : Memory),
    sourceMemory image = .ok mem0 → (program.getD []).length ≤ Config.progLenMax →
    launch program image = .ok ⟨bootState (program.getD []) mem0,
      (if program.isNone then [.program] else []) ++ (if image.isNone then [.memory] else [])⟩

/-! ## Encoding -/

/-- 30_encoding.md section 3 (R107's "Then WordDecode(Enc(d)) = d", which the spec marks as derived): for every well-formed
instruction and every operand value, the unknown-opcode rows included, decoding the encoding gives the instruction back. -/
def Obligations.DecodeOfEncode : Prop :=
  ∀ i : Instr, wellFormed i = true → wordDecode (encode i) = .instr i

/-- 30_encoding.md section 3 (R107's second law, which the spec marks as derived): a word that decodes to one of the eleven
instructions is that instruction's encoding; and whatever instruction a word decodes to is well-formed. -/
def Obligations.EncodeOfDecode : Prop :=
  (∀ (w : InstrWord) (i : Instr), wordDecode w = .instr i → isCore i = true → encode i = w) ∧
  (∀ (w : InstrWord) (i : Instr), wordDecode w = .instr i → wellFormed i = true)

/-- R101: the opcode numbers and the field assignment of the eleven instructions, that a word with a must-be-zero field not zero is
none of them, and that a word whose `op` is 0x00 or
0x0C .. 0xFF is an unknown opcode whatever its other fields are, reported under its own number. -/
def Obligations.OpcodeNumbersAndFields : Prop :=
  (∀ rd rs rt : RegIdx,
    wordDecode (wordOf 0x01 rd rs rt 0) = .instr (.add rd rs rt) ∧
    wordDecode (wordOf 0x02 rd rs rt 0) = .instr (.sub rd rs rt) ∧
    wordDecode (wordOf 0x06 rd rs rt 0) = .instr (.slt rd rs rt)) ∧
  (∀ (r1 r2 : RegIdx) (v : Word),
    wordDecode (wordOf 0x03 r1 r2 0 v.toNat) = .instr (.addi r1 r2 v) ∧
    wordDecode (wordOf 0x04 r1 r2 0 v.toNat) = .instr (.lw r1 r2 v) ∧
    wordDecode (wordOf 0x05 r1 r2 0 v.toNat) = .instr (.sw r1 r2 v) ∧
    wordDecode (wordOf 0x07 r1 r2 0 v.toNat) = .instr (.bne r1 r2 v)) ∧
  (∀ v : Word,
    wordDecode (wordOf 0x08 0 0 0 v.toNat) = .instr (.j v) ∧
    wordDecode (wordOf 0x09 0 0 0 v.toNat) = .instr (.jal v) ∧
    wordDecode (wordOf 0x0A 0 0 0 v.toNat) = .instr (.cache v)) ∧
  wordDecode (wordOf 0x0B 0 0 0 0) = .instr .halt ∧
  (∀ (w : InstrWord) (o : Opcode), opcodeOfNumber (opField w) = some o → mbzViolated o w → ∀ i, wordDecode w ≠ .instr i) ∧
  (∀ w : InstrWord, w.toNat / 2 ^ 56 = 0 → wordDecode w = .instr .unknown00) ∧
  (∀ w : InstrWord, 0x0C ≤ w.toNat / 2 ^ 56 →
    ∃ i, wordDecode w = .instr i ∧ isCore i = false ∧
      ∀ s ev, (instrEvent s ev i).notice = some (.unknownOpcode (.number (BitVec.ofNat 8 (w.toNat / 2 ^ 56)))))

/-- R104: a word whose `op` is 0x01 .. 0x0B decodes to Invalid(mbz) exactly when one of its must-be-zero fields is not zero,
and is fatal when fetched; and a word matches a row of spec/opcode_table.json exactly when it is a valid instruction of that row. -/
def Obligations.MustBeZeroAndTableRows : Prop :=
  (∀ (w : InstrWord) (o : Opcode), opcodeOfNumber (opField w) = some o →
    (wordDecode w = .invalid .mbz ↔ mbzViolated o w)) ∧
  (∀ (w : InstrWord) (info : InvalidInfo), wordDecode w = .invalid info →
    info = .mbz ∧ 0x01 ≤ (opField w).toNat ∧ (opField w).toNat ≤ 0x0B) ∧
  (∀ (s : State) (w : InstrWord) (o : Opcode), canStep s → slotAtPc s = some (.word w) →
    opcodeOfNumber (opField w) = some o → mbzViolated o w → ∃ t, step s = .next t ∧ t.fatal = some .mbz) ∧
  (∀ (w : InstrWord) (k : Instr),
    w &&& (tableRow k).mask = (tableRow k).pattern ↔
      ∃ i, wordDecode w = .instr i ∧ tableRow i = tableRow k)

/-- 95_test_vectors.md 2.2: words written out from the encoding decode to the instructions they stand for. -/
def Obligations.WrittenOutWordsDecode : Prop :=
  wordDecode 0x0118440000000000 = .instr (.add 3 1 2) ∧
  wordDecode 0x03200000FFFFFFFF = .instr (.addi 4 0 (-1)) ∧
  wordDecode 0x04FF8000FFFFFFFC = .instr (.lw 31 30 (-4)) ∧
  wordDecode 0x0511400000000004 = .instr (.sw 2 5 4) ∧
  wordDecode 0x07080000FFFFFFFD = .instr (.bne 1 0 (-3)) ∧
  wordDecode 0x090000007FFFFFFF = .instr (.jal 0x7FFFFFFF) ∧
  wordDecode 0x0A00000000000007 = .instr (.cache 7) ∧
  wordDecode 0x0B00000000000000 = .instr .halt ∧
  wordDecode 0xFFFFFFFFFFFFFFFF = .instr (.unknown80FF 0xFF) ∧
  wordDecode 0x0118440100000000 = .invalid .mbz

/-- 30_encoding.md section 7: the assembly spelling of an instruction, for every operand value, decodes at the record level to
that instruction. -/
def Obligations.SpellingDecodes : Prop :=
  ∀ (i : Instr) (r : Record), spell i = some r → recordDecode r = .instr i

/-- R89 (with the order of R83 and D21): an unknown tag wins over any operand; then the arity; then the first bad operand from
the left is the one reported, with its text and sub-cause; otherwise the record is the instruction of the named opcode whose
operands are the tokens' values, in the roles of R82. -/
def Obligations.RecordDecodeOrder : Prop :=
  (∀ r : Record, opcodeOfTag r.opcode = none → recordDecode r = .unknownTag r.opcode) ∧
  (∀ (r : Record) (o : Opcode), opcodeOfTag r.opcode = some o →
    (r.operands.length ≠ (operandKinds o).length → recordDecode r = .invalid .arity) ∧
    (∀ (k : Nat) (t : Token) (kind : OperandKind) (f : OperandFault),
      r.operands.length = (operandKinds o).length →
      r.operands[k]? = some t → (operandKinds o)[k]? = some kind → tokenFault kind t = some f →
      (∀ (j : Nat) (u : Token) (kd : OperandKind), j < k →
        r.operands[j]? = some u → (operandKinds o)[j]? = some kd → tokenFault kd u = none) →
      recordDecode r = .invalid (.operand (k + 1) t f)) ∧
    (r.operands.length = (operandKinds o).length →
      (∀ (j : Nat) (u : Token) (kd : OperandKind),
        r.operands[j]? = some u → (operandKinds o)[j]? = some kd → tokenFault kd u = none) →
      ∃ i, recordDecode r = .instr i ∧ opcodeOf i = some o ∧ tokensGive i r.operands))

/-- R81: a tag names an opcode exactly when its ASCII upper case is that opcode's name, the whole of it; a tag that names none is
an unknown opcode whatever the operands are. -/
def Obligations.OpcodeNamesWholeTag : Prop :=
  (∀ (tag : Token) (o : Opcode), opcodeOfTag tag = some o ↔ (tag.map upperChar, o) ∈ opcodeNames) ∧
  (∀ (tag : Token) (ts : List Token), tag.map upperChar ∉ opcodeNames.map (fun p => p.1) →
    recordDecode ⟨tag, ts⟩ = .unknownTag tag) ∧
  opcodeNames.length = 11

/-- R86: a register token is `R` and one or more decimal digits whose value is at most 31, and its value is that index; digits of
a larger value are out of range, and anything else is malformed. -/
def Obligations.RegisterTokenGrammar : Prop :=
  (∀ (t : Token) (r : RegIdx), parseRegister t = .ok r ↔
    ∃ ds, t = 'R' :: ds ∧ isDigits ds ∧ decimalValue ds = r.val) ∧
  (∀ t : Token, parseRegister t = .error .registerRange ↔
    ∃ ds, t = 'R' :: ds ∧ isDigits ds ∧ 31 < decimalValue ds) ∧
  (∀ t : Token, parseRegister t = .error .malformedRegister ↔ ¬ ∃ ds, t = 'R' :: ds ∧ isDigits ds)

/-- R87: an integer literal is an optional sign and one or more decimal digits; its value is a word, and a value outside the word
range is refused, not wrapped. -/
def Obligations.LiteralGrammar : Prop :=
  (∀ (t : Token) (v : Word), parseLiteral t = .ok v ↔
    ∃ ds, isDigits ds ∧
      (((t = ds ∨ t = '+' :: ds) ∧ (decimalValue ds : Int) = v.toInt) ∨
       (t = '-' :: ds ∧ -(decimalValue ds : Int) = v.toInt))) ∧
  (∀ t : Token, parseLiteral t = .error .literalRange ↔
    ∃ ds, isDigits ds ∧
      (((t = ds ∨ t = '+' :: ds) ∧ 2147483647 < decimalValue ds) ∨
       (t = '-' :: ds ∧ 2147483648 < decimalValue ds))) ∧
  (∀ t : Token, parseLiteral t = .error .malformedLiteral ↔
    ¬ ∃ ds, isDigits ds ∧ (t = ds ∨ t = '+' :: ds ∨ t = '-' :: ds))

/-- R88: a memory token is a literal, `(`, a register token, `)`, and nothing else; its value is the pair. -/
def Obligations.MemoryTokenGrammar : Prop :=
  ∀ (t : Token) (offset : Word) (rs : RegIdx), parseMemory t = .ok (offset, rs) ↔
    ∃ l r, t = l ++ '(' :: r ++ [')'] ∧ parseLiteral l = .ok offset ∧ parseRegister r = .ok rs

/-! ## The step -/

/-- R122: a step fetches the entry at the pc, decodes it and runs the arm it decodes to: `exec` of the instruction; for an unknown
tag, only `pc <- pc + 1`; for an invalid entry, InvalidOperand. A step adds nothing around the arm. -/
def Obligations.StepRunsDecodedEntry : Prop :=
  ∀ (s : State) (e : Slot), canStep s → slotAtPc s = some e →
    (∀ i, slotDecode e = .instr i → step s = exec i s) ∧
    (∀ tag, slotDecode e = .unknownTag tag → step s = .next { s with pc := s.pc + 1 }) ∧
    (∀ info, slotDecode e = .invalid info → step s = .next { s with fatal := some info })

/-- R121: a step exists exactly when `fatal = none`, `running`, and 0 ≤ pc < PROGLEN; otherwise the machine is stopped. -/
def Obligations.StepExistsIffCanStep : Prop :=
  ∀ s : State,
    ((∃ t, step s = .next t) ↔
      (s.fatal = none ∧ s.running = true ∧ 0 ≤ s.pc ∧ s.pc < (s.program.length : Int))) ∧
    (¬ canStep s → ∃ f, step s = .fault f) ∧
    (∀ r, step s ≠ .refused r)

/-- R240: a stopped state has exactly one of the four stop reasons, each under its condition; only the first two are final;
a run ends exactly when it reaches a stopped state. -/
def Obligations.FourStopReasons : Prop :=
  ∀ s : State,
    (step s = .fault .haltInstr ↔ s.fatal = none ∧ s.running = false) ∧
    (step s = .fault .pcPastEnd ↔ s.fatal = none ∧ s.running = true ∧ progLen s ≤ s.pc) ∧
    (step s = .fault .pcBelowZero ↔ s.fatal = none ∧ s.running = true ∧ s.pc < 0) ∧
    (∀ info, step s = .fault (.fatal info) ↔ s.fatal = some info) ∧
    (¬ canStep s → ∃ f, step s = .fault f ∧ stopReason s = some f) ∧
    (isFinal s ↔ s.fatal = none ∧ (s.running = false ∨ progLen s ≤ s.pc)) ∧
    ((∃ n f, runSteps n s = .fault f) ↔ ∃ n t, runSteps n s = .next t ∧ ¬ canStep t)

/-- 60_exceptions.md section 1 (R206, R207, R26): InvalidOperand leaves registers, memory, pc and both flags as they were, sets
`fatal`, and no further step exists; no final report is given. -/
def Obligations.InvalidOperandIsPreciseAndEndsTheRun : Prop :=
  ∀ (s : State) (info : InvalidInfo), canStep s → atPc s (.invalid info) →
    ∃ t, step s = .next t ∧ keepsRegs s t ∧ keepsMemory s t ∧ t.pc = s.pc ∧ t.running = s.running ∧
      t.cacheEnabled = s.cacheEnabled ∧ t.program = s.program ∧ t.fatal = some info ∧
      step t = .fault (.fatal info) ∧ finalReport t = none

/-! ## The instructions: result, pc, frame and encoding; each completes in every state -/

/-- R140: ADD, for all registers, rd equal to a source included. -/
def Obligations.AddResult : Prop :=
  ∀ (s : State) (rd rs rt : RegIdx), ∃ t, exec (.add rd rs rt) s = .next t ∧
    regInt t rd = wrapInt (regInt s rs + regInt s rt) ∧ keepsRegsBut rd s t ∧
    t.pc = s.pc + 1 ∧ keepsMemory s t ∧ keepsControl s t ∧
    encodedAs (.add rd rs rt) ['A', 'D', 'D'] 0x01 rd rs rt 0

/-- R141: SUB, for all registers. -/
def Obligations.SubResult : Prop :=
  ∀ (s : State) (rd rs rt : RegIdx), ∃ t, exec (.sub rd rs rt) s = .next t ∧
    regInt t rd = wrapInt (regInt s rs - regInt s rt) ∧ keepsRegsBut rd s t ∧
    t.pc = s.pc + 1 ∧ keepsMemory s t ∧ keepsControl s t ∧
    encodedAs (.sub rd rs rt) ['S', 'U', 'B'] 0x02 rd rs rt 0

/-- R142: ADDI, for all registers and immediates. -/
def Obligations.AddiResult : Prop :=
  ∀ (s : State) (rt rs : RegIdx) (imm : Word), ∃ t, exec (.addi rt rs imm) s = .next t ∧
    regInt t rt = wrapInt (regInt s rs + imm.toInt) ∧ keepsRegsBut rt s t ∧
    t.pc = s.pc + 1 ∧ keepsMemory s t ∧ keepsControl s t ∧
    encodedAs (.addi rt rs imm) ['A', 'D', 'D', 'I'] 0x03 rt rs 0 imm.toNat

/-- R143: SLT, for all registers; the comparison is of signed integers and never overflows. -/
def Obligations.SltResult : Prop :=
  ∀ (s : State) (rd rs rt : RegIdx), ∃ t, exec (.slt rd rs rt) s = .next t ∧
    regInt t rd = (if regInt s rs < regInt s rt then 1 else 0) ∧ keepsRegsBut rd s t ∧
    t.pc = s.pc + 1 ∧ keepsMemory s t ∧ keepsControl s t ∧
    encodedAs (.slt rd rs rt) ['S', 'L', 'T'] 0x06 rd rs rt 0

/-- R150: LW, for all registers and offsets, rt = rs included: the word at `wrap32(x[rs] + offset)`, 0 if that address is unset;
memory is not changed, so an unset address stays unset. -/
def Obligations.LwResult : Prop :=
  ∀ (s : State) (rt rs : RegIdx) (offset : Word), ∃ t, exec (.lw rt rs offset) s = .next t ∧
    (effectiveAddress s rs offset).toInt = wrapInt (regInt s rs + offset.toInt) ∧
    regInt t rt = ((Memory.lookup s.mem (effectiveAddress s rs offset)).getD 0).toInt ∧ keepsRegsBut rt s t ∧
    t.pc = s.pc + 1 ∧ keepsMemory s t ∧ keepsControl s t ∧
    encodedAs (.lw rt rs offset) ['L', 'W'] 0x04 rt rs 0 offset.toNat

/-- R151: SW, for all registers and offsets: the address `wrap32(x[rs] + offset)` becomes set to x[rt], the value 0 included, and
no other address changes; no register is written. -/
def Obligations.SwResult : Prop :=
  ∀ (s : State) (rt rs : RegIdx) (offset : Word), ∃ t, exec (.sw rt rs offset) s = .next t ∧
    (effectiveAddress s rs offset).toInt = wrapInt (regInt s rs + offset.toInt) ∧
    (Memory.lookup t.mem (effectiveAddress s rs offset)).map BitVec.toInt = some (regInt s rt) ∧
    (Memory.read t.mem (effectiveAddress s rs offset)).toInt = regInt s rt ∧
    keepsMemoryBut (effectiveAddress s rs offset) s t ∧
    t.pc = s.pc + 1 ∧ keepsRegs s t ∧ keepsControl s t ∧
    encodedAs (.sw rt rs offset) ['S', 'W'] 0x05 rt rs 0 offset.toNat

/-- R160: BNE, for all registers and offsets; the target is exact, not wrapped, and never a fault. -/
def Obligations.BneResult : Prop :=
  ∀ (s : State) (rs rt : RegIdx) (offset : Word), ∃ t, exec (.bne rs rt offset) s = .next t ∧
    t.pc = (if regInt s rs ≠ regInt s rt then s.pc + 1 + offset.toInt else s.pc + 1) ∧ keepsAllButPc s t ∧
    (∀ e, (instrEvent s (bareEvent s e) (.bne rs rt offset)).target = some (s.pc + 1 + offset.toInt) ∧
      (instrEvent s (bareEvent s e) (.bne rs rt offset)).taken = some (decide (regInt s rs ≠ regInt s rt))) ∧
    encodedAs (.bne rs rt offset) ['B', 'N', 'E'] 0x07 rs rt 0 offset.toNat

/-- R161: J, for every target. -/
def Obligations.JResult : Prop :=
  ∀ (s : State) (target : Word), ∃ t, exec (.j target) s = .next t ∧
    t.pc = target.toInt ∧ keepsAllButPc s t ∧
    (∀ e, (instrEvent s (bareEvent s e) (.j target)).target = some target.toInt) ∧
    encodedAs (.j target) ['J'] 0x08 0 0 0 target.toNat

/-- R162: JAL, for every target: the link is the pc of the start of the step plus 1, written whatever the target; as a word it is
exact for every pc that can stand in a program. -/
def Obligations.JalResult : Prop :=
  ∀ (s : State) (target : Word), ∃ t, exec (.jal target) s = .next t ∧
    regInt t 7 = wrapInt (s.pc + 1) ∧ (-2147483648 ≤ s.pc + 1 → s.pc + 1 ≤ 2147483647 → regInt t 7 = s.pc + 1) ∧
    keepsRegsBut 7 s t ∧ t.pc = target.toInt ∧ keepsMemory s t ∧ keepsControl s t ∧
    (∀ e, (instrEvent s (bareEvent s e) (.jal target)).target = some target.toInt) ∧
    encodedAs (.jal target) ['J', 'A', 'L'] 0x09 0 0 0 target.toNat

/-- R170: CACHE, for every code: 0 clears and 1 sets `cache_enabled`, every other code leaves it; the trace mode or the
UnknownCacheCode notice is as the rule says; nothing else changes but the pc. -/
def Obligations.CacheResult : Prop :=
  ∀ (s : State) (code : Word), ∃ t, exec (.cache code) s = .next t ∧
    t.cacheEnabled = (if code.toInt = 0 then false else if code.toInt = 1 then true else s.cacheEnabled) ∧
    t.pc = s.pc + 1 ∧ keepsRegs s t ∧ keepsMemory s t ∧
    t.running = s.running ∧ t.fatal = s.fatal ∧ t.program = s.program ∧
    (∀ e, (instrEvent s (bareEvent s e) (.cache code)).mode =
        (if code.toInt = 0 then some .disabled else if code.toInt = 1 then some .enabled
         else if code.toInt = 2 then some .flush else none) ∧
      (instrEvent s (bareEvent s e) (.cache code)).notice =
        (if code.toInt = 0 ∨ code.toInt = 1 ∨ code.toInt = 2 then none else some (.unknownCacheCode code))) ∧
    encodedAs (.cache code) ['C', 'A', 'C', 'H', 'E'] 0x0A 0 0 0 code.toNat

/-- R172: HALT clears `running` and changes nothing else; the pc stays (decision D8); after it no step exists. -/
def Obligations.HaltResult : Prop :=
  ∀ s : State, ∃ t, exec .halt s = .next t ∧
    t.running = false ∧ t.pc = s.pc ∧ keepsRegs s t ∧ keepsMemory s t ∧
    t.cacheEnabled = s.cacheEnabled ∧ t.fatal = s.fatal ∧ t.program = s.program ∧
    (s.fatal = none → step t = .fault .haltInstr) ∧ ¬ canStep t ∧
    encodedAs .halt ['H', 'A', 'L', 'T'] 0x0B 0 0 0 0

/-- R176: an unknown opcode, of any of the six rows or as a record's tag, changes nothing but the pc, which goes to pc + 1, and gives
the UnknownOpcode notice with its tag. -/
def Obligations.UnknownOpcodeResult : Prop :=
  (∀ (s : State) (i : Instr), isCore i = false → ∃ t, exec i s = .next t ∧ t.pc = s.pc + 1 ∧ keepsAllButPc s t) ∧
  (∀ (s : State) (e : Slot) (tag : Token), canStep s → slotAtPc s = some e → slotDecode e = .unknownTag tag →
    ∃ t, step s = .next t ∧ t.pc = s.pc + 1 ∧ keepsAllButPc s t ∧
      ∃ ev, traceOf s = some ev ∧ ev.notice = some (.unknownOpcode (.name tag))) ∧
  (∀ (s : State) (w : InstrWord), canStep s → slotAtPc s = some (.word w) → opcodeOfNumber (opField w) = none →
    ∃ t, step s = .next t ∧ t.pc = s.pc + 1 ∧ keepsAllButPc s t ∧
      ∃ ev, traceOf s = some ev ∧ ev.notice = some (.unknownOpcode (.number (opField w))))

/-! ## Rules about all instructions -/

/-- R40: an instruction writes no register but the one the table gives it; and it reads none but the table's, so that another value
in a register it does not read changes nothing of what it does, but that the register keeps that value unless it is written. -/
def Obligations.RegistersReadAndWritten : Prop :=
  (∀ (i : Instr) (s t : State) (q : RegIdx), exec i s = .next t → writesReg i ≠ some q → regInt t q = regInt s q) ∧
  (∀ (i : Instr) (s t : State) (q : RegIdx) (v : Word), exec i s = .next t → q ∉ readsRegs i →
    exec i (writeReg s q v) = .next (if writesReg i = some q then t else writeReg t q v))

/-- R23: how each instruction, an unknown opcode and a fatal step leave the pc, complete. -/
def Obligations.PcAfterEveryStep : Prop :=
  (∀ (i : Instr) (s t : State), exec i s = .next t →
    t.pc = match i with
      | .bne rs rt offset => if regInt s rs ≠ regInt s rt then s.pc + 1 + offset.toInt else s.pc + 1
      | .j target => target.toInt
      | .jal target => target.toInt
      | .halt => s.pc
      | _ => s.pc + 1) ∧
  (∀ (s t : State) (e : Slot), step s = .next t → slotAtPc s = some e →
    (∀ tag, slotDecode e = .unknownTag tag → t.pc = s.pc + 1) ∧
    (∀ info, slotDecode e = .invalid info → t.pc = s.pc))

/-- 40_fetch_decode_dispatch.md section 5 (R124, R246; the compensated value of J is the spec's own derivation): the two-phase
datapath gives the same next pc, and in a state of a run its intermediate pc fits 33 signed bits. -/
def Obligations.TwoPhaseDatapathAgrees : Prop :=
  (∀ (i : Instr) (s t : State), exec i s = .next t → t.pc = twoPhasePc i s) ∧
  (∀ (i : Instr) (s : State), InRange s → canStep s →
    -2147483649 ≤ handlerPc i s ∧ handlerPc i s ≤ 4294967293)

/-- R27: no instruction writes a flag other than HALT (`running`) and CACHE (`cache_enabled`, by codes 0 and 1). -/
def Obligations.FlagsWrittenByHaltAndCacheOnly : Prop :=
  ∀ s t : State, step s = .next t →
    (t.running ≠ s.running → atPc s (.instr .halt) ∧ t.running = false) ∧
    (t.cacheEnabled ≠ s.cacheEnabled →
      (atPc s (.instr (.cache 0)) ∧ t.cacheEnabled = false) ∨ (atPc s (.instr (.cache 1)) ∧ t.cacheEnabled = true))

/-- R67: after CACHE with any code, memory, registers and the outcome of every later step are what they would have been without it,
that is, had the step only advanced the pc, however many steps follow. -/
def Obligations.CacheNeverMatters : Prop :=
  ∀ (s t : State) (code : Word) (n : Nat), exec (.cache code) s = .next t →
    match runSteps n t, runSteps n (advance s) with
    | .next u, .next v =>
      u.regs = v.regs ∧ u.mem = v.mem ∧ u.pc = v.pc ∧ u.running = v.running ∧ u.fatal = v.fatal ∧ u.program = v.program
    | .fault f, .fault g => f = g
    | _, _ => False

/-- R66: no step changes the program; and no instruction reads it: with any other program in the store an instruction has the same
effect. -/
def Obligations.ProgramNeverWrittenNorRead : Prop :=
  (∀ s t : State, step s = .next t → t.program = s.program) ∧
  (∀ (i : Instr) (s t : State) (p : List Slot), exec i s = .next t →
    exec i { s with program := p } = .next { t with program := p })

/-- R54: once set, an address holds its last-written value until overwritten; no step unsets an address; and only an SW changes an
address, the one it computes, to the value of its register. -/
def Obligations.MemoryChangesOnlyByStores : Prop :=
  ∀ s t : State, step s = .next t → ∀ a : Word,
    ((Memory.lookup s.mem a).isSome = true → (Memory.lookup t.mem a).isSome = true) ∧
    (Memory.lookup t.mem a ≠ Memory.lookup s.mem a →
      ∃ rt rs offset, atPc s (.instr (.sw rt rs offset)) ∧ a = effectiveAddress s rs offset ∧
        Memory.lookup t.mem a = some (readReg s rt))

/-- R52 and R53: a read gives the value of a set address and 0 for an unset one; a write sets its address to the value, whether or not
it was set, and changes no other address. -/
def Obligations.MemoryReadAndWrite : Prop :=
  (∀ (m : Memory) (a v : Word), Memory.lookup m a = some v → Memory.read m a = v) ∧
  (∀ (m : Memory) (a : Word), Memory.lookup m a = none → Memory.read m a = 0) ∧
  (∀ (m : Memory) (a v : Word), Memory.lookup (Memory.write m a v) a = some v) ∧
  (∀ (m : Memory) (a v c : Word), c ≠ a → Memory.lookup (Memory.write m a v) c = Memory.lookup m c)

/-- 20_memory.md sections 1 and 5, for the model's list of set addresses (log 2): in canonical form the list is determined by what
each address holds, so equal memories are equal lists; and every write and load keeps the form. -/
def Obligations.CanonicalMemoriesAreEqual : Prop :=
  (∀ m n : Memory, Memory.wf m = true → Memory.wf n = true →
    (∀ a, Memory.lookup m a = Memory.lookup n a) → m = n) ∧
  (∀ (m : Memory) (a v : Word), Memory.wf m = true → Memory.wf (Memory.write m a v) = true) ∧
  (∀ pairs : List (Word × Word), Memory.wf (Memory.load pairs) = true)

/-- R188: when the machine has stopped without a fatal stop, the report holds all 32 registers and exactly the set addresses with
their values in ascending signed order; while it runs and after a fatal stop there is none. -/
def Obligations.FinalReportIsTheState : Prop :=
  ∀ s : State,
    (¬ canStep s → s.fatal = none → Memory.wf s.mem = true →
      ∃ r, finalReport s = some r ∧ r.registers.length = 32 ∧
        (∀ q : RegIdx, r.registers[q.val]? = some (regInt s q)) ∧
        (r.snapshot.map fun p => p.1).Pairwise (fun x y => x < y) ∧
        (∀ a v : Word, (a.toInt, v.toInt) ∈ r.snapshot ↔ Memory.lookup s.mem a = some v) ∧
        (∀ p ∈ r.snapshot, inWordRange p.1 ∧ inWordRange p.2)) ∧
    (canStep s → finalReport s = none) ∧
    (s.fatal ≠ none → finalReport s = none)

/-- 47_host_interfaces.md, final state and status (R188, R189, decision D26): in every state the status interface shows the stop
reason, the pc and both flags (that `cache_enabled` stands there, as R188 says, though R186 calls the trace the only place it leaves
the block, is the model's DESIGN CHOICE, log 16; that the pc, the flags and the code are shown while the machine runs as well,
DESIGN CHOICE, log 17); a stopped machine's registers and memory are readable there, after a fatal stop as
well, where they are no final report. -/
def Obligations.StatusInterfaceShowsTheState : Prop :=
  ∀ s : State,
    (statusReport s).pc = s.pc ∧ (statusReport s).running = s.running ∧ (statusReport s).cacheEnabled = s.cacheEnabled ∧
    ((statusReport s).stop = none ↔ canStep s) ∧
    (∀ f, (statusReport s).stop = some f ↔ step s = .fault f) ∧
    (statusReport s).code = (if s.fatal = none then 0 else 4) ∧
    (canStep s → (statusReport s).frozen = none) ∧
    (¬ canStep s → Memory.wf s.mem = true →
      ∃ r, (statusReport s).frozen = some r ∧
        finalReport s = (if s.fatal = none then some r else none) ∧
        r.registers.length = 32 ∧ (∀ q : RegIdx, r.registers[q.val]? = some (regInt s q)) ∧
        (r.snapshot.map fun p => p.1).Pairwise (fun x y => x < y) ∧
        (∀ a v : Word, (a.toInt, v.toInt) ∈ r.snapshot ↔ Memory.lookup s.mem a = some v) ∧
        (∀ p ∈ r.snapshot, inWordRange p.1 ∧ inWordRange p.2))

/-- 42_load_store.md (R153, which the spec marks as derived): SW then LW with the same base and offset loads the stored value, for
all registers and addresses, r2 = r1 and r3 = r1 included. -/
def Obligations.StoreThenLoad : Prop :=
  ∀ (s : State) (r1 r2 r3 : RegIdx) (offset : Word),
    ∃ u t, exec (.sw r2 r1 offset) s = .next u ∧ exec (.lw r3 r1 offset) u = .next t ∧ regInt t r3 = regInt s r2

/-- 41_arithmetic_compare.md (R147, which the spec marks as derived): ADD then SUB with the destination as first source restores it,
across overflow, when the registers differ, and leaves 0 when they do not; with a third destination it leaves the difference. -/
def Obligations.AddThenSub : Prop :=
  (∀ (s : State) (d r : RegIdx), ∃ u t, exec (.add d d r) s = .next u ∧ exec (.sub d d r) u = .next t ∧
    regInt t d = (if d = r then 0 else regInt s d)) ∧
  (∀ (s : State) (d p r : RegIdx), d ≠ p → d ≠ r →
    ∃ u t, exec (.add d p r) s = .next u ∧ exec (.sub d p r) u = .next t ∧
      regInt t d = wrapInt (regInt s p - regInt s r))

/-- 30_encoding.md section 5 (R112, which the spec marks as derived): the instructions that change nothing but the pc, as whole
states; and ADD R0, R0, R0 is not one: it doubles register 0. -/
def Obligations.InstructionsWithoutEffect : Prop :=
  (∀ (s : State) (code : Word), code.toInt ≠ 0 → code.toInt ≠ 1 →
    exec (.cache code) s = .next { s with pc := s.pc + 1 }) ∧
  (∀ (s : State) (r : RegIdx), exec (.addi r r 0) s = .next { s with pc := s.pc + 1 }) ∧
  (∀ (s : State) (r : RegIdx) (k : Word), exec (.bne r r k) s = .next { s with pc := s.pc + 1 }) ∧
  (∀ (s : State) (k : Word), s.pc = k.toInt - 1 → exec (.j k) s = .next { s with pc := s.pc + 1 }) ∧
  (∀ s : State, ∃ t, exec (.add 0 0 0) s = .next t ∧ regInt t 0 = wrapInt (2 * regInt s 0))

/-- 00_scope.md section 6 (R12, whose conclusion the spec marks as derived): under NoOverflow the results and addresses are the exact
integers, without wrap32. -/
def Obligations.ExactUnderNoOverflow : Prop :=
  ∀ (i : Instr) (s t : State), noOverflow i s → exec i s = .next t →
    match i with
    | .add rd rs rt => regInt t rd = regInt s rs + regInt s rt
    | .sub rd rs rt => regInt t rd = regInt s rs - regInt s rt
    | .addi rt rs imm => regInt t rt = regInt s rs + imm.toInt
    | .lw rt rs offset => ∃ a : Word, a.toInt = regInt s rs + offset.toInt ∧ regInt t rt = (Memory.read s.mem a).toInt
    | .sw rt rs offset => ∃ a : Word, a.toInt = regInt s rs + offset.toInt ∧
        (Memory.lookup t.mem a).map BitVec.toInt = some (regInt s rt)
    | _ => True

/-- 00_scope.md section 6 (R12, whose conclusion the spec marks as derived): one step of a machine whose program has at most 2^31 - 1
entries, whose entry at the pc has its literals in the word range and whose instruction leaves it nowhere, is the step of the
source's machine on unbounded integers (read from R12, DEDUCED: log 15): the same next state, or the same stop. -/
def Obligations.StepIsUnboundedUnderNoOverflow : Prop :=
  ∀ s : State, s.program.length ≤ Config.progLenMax →
    (∀ e, slotAtPc s = some e → literalsInRange e) → (∀ i, canStep s → atPc s (.instr i) → noOverflow i s) →
    match step s, sourceStep (sourceOf s) with
    | .next t, .ok u => u = sourceOf t
    | .fault f, .error g => f = g
    | _, _ => False

/-- 00_scope.md section 6 (R12, whose conclusion the spec marks as derived): a launched run that satisfies NoOverflow makes, however
many steps it takes, the states of the source's machine on unbounded integers (DEDUCED: log 15), and stops with it. -/
def Obligations.RunIsUnboundedUnderNoOverflow : Prop :=
  ∀ (program : Option (List Slot)) (image : Option MemoryImage) (l : Launched) (n : Nat),
    launch program image = .ok l → runNoOverflow program image →
    match runSteps n l.state, sourceRun n (sourceBoot program image) with
    | .next t, .ok u => u = sourceOf t
    | .fault f, .error g => f = g
    | _, _ => False

/-- R163: a target outside the program is no fault: the step completes, JAL writes its link, the pc becomes the target, and then no
further step exists, with a stop reason that tells a target past the end from one below zero (decision D4). -/
def Obligations.TargetsOutsideTheProgramStop : Prop :=
  ∀ s : State, canStep s →
    (∀ target : Word, target.toInt < 0 ∨ progLen s ≤ target.toInt →
      (∃ t, exec (.j target) s = .next t ∧ t.pc = target.toInt ∧ t.running = true ∧
        step t = .fault (if target.toInt < 0 then .pcBelowZero else .pcPastEnd)) ∧
      (∃ t, exec (.jal target) s = .next t ∧ t.pc = target.toInt ∧ t.running = true ∧
        regInt t 7 = wrapInt (s.pc + 1) ∧
        step t = .fault (if target.toInt < 0 then .pcBelowZero else .pcPastEnd))) ∧
    (∀ (rs rt : RegIdx) (offset : Word), regInt s rs ≠ regInt s rt →
      s.pc + 1 + offset.toInt < 0 ∨ progLen s ≤ s.pc + 1 + offset.toInt →
      ∃ t, exec (.bne rs rt offset) s = .next t ∧ t.pc = s.pc + 1 + offset.toInt ∧ t.running = true ∧
        step t = .fault (if s.pc + 1 + offset.toInt < 0 then .pcBelowZero else .pcPastEnd))

/-! ## Invariants -/

/-- 10_state.md sections 8 and 9, 70_reset_and_hazards.md section 1: the invariant holds in the reset state and in every state a
launch gives. -/
def Obligations.LaunchEstablishesInvariant : Prop :=
  RunInv State.reset ∧
  ∀ (program : Option (List Slot)) (image : Option MemoryImage) (l : Launched),
    launch program image = .ok l → RunInv l.state

/-- 10_state.md (R22, R30, R35), 60_exceptions.md (R206) and 70_reset_and_hazards.md (R241, with decision D8): every step keeps the
invariant: memory in canonical form, PROGLEN bounded, the pc in -2^31 .. 2^32 - 2, a fatal stop at the malformed entry with that
entry's own sub-cause, a halted machine at a HALT. -/
def Obligations.StepKeepsInvariant : Prop :=
  ∀ s t : State, RunInv s → step s = .next t → RunInv t

/-- The same of every state a run from a launch reaches, whatever the program and the memory image; and a run is never refused, so
it ends only in one of the four stop reasons. -/
def Obligations.EveryRunKeepsInvariant : Prop :=
  ∀ (program : Option (List Slot)) (image : Option MemoryImage) (l : Launched) (n : Nat),
    launch program image = .ok l →
    (∀ t, runSteps n l.state = .next t → RunInv t) ∧
    (∀ r, runSteps n l.state ≠ .refused r)

/-! ## The two levels, and the trace -/

/-- 30_encoding.md section 3 (R109, which the spec marks as derived): machines whose programs have entries of the same meaning make
the same steps: if they run alike now, both step and run alike after, or both stop for the same reason (but for the payload of a
fatal stop). -/
def Obligations.RunsAlikeStaysAlike : Prop :=
  ∀ s t : State, runsAlike s t →
    match step s, step t with
    | .next u, .next v => runsAlike u v
    | .fault (.fatal _), .fault (.fatal _) => True
    | .fault f, .fault g => f = g
    | _, _ => False

/-- 30_encoding.md section 3 (R109): the program of the corresponding words runs alike with the program of records. -/
def Obligations.AssembledProgramRunsAlike : Prop :=
  ∀ s : State, runsAlike s { s with program := s.program.map fun e => .word (assemble e) }

/-- 60_exceptions.md section 1 (R200, decision D20): the code of each step's event, by what the entry decodes to; code 4 exactly on the
step that sets `fatal`, which is then the status code; a step with code 2 or 3 only advances the pc. MissingSource, code 1, is the
loader's notice, one for each source that is missing. That the status has a code, 0, while the machine runs as well is the model's
DESIGN CHOICE (log 17): the spec has the status read after the stop. -/
def Obligations.ConditionCodes : Prop :=
  (∀ (s t : State) (e : Slot), step s = .next t → slotAtPc s = some e →
    ∃ ev, traceOf s = some ev ∧
      ev.code = (match slotDecode e with
        | .unknownTag _ => 2
        | .invalid _ => 4
        | .instr (.cache code) => if code.toInt = 0 ∨ code.toInt = 1 ∨ code.toInt = 2 then 0 else 3
        | .instr i => if isCore i then 0 else 2) ∧
      (ev.code = 4 ↔ t.fatal ≠ none) ∧ (ev.code = 2 ∨ ev.code = 3 → t = { s with pc := s.pc + 1 }) ∧
      (∀ c, ev.notice = some c → (c.isFatal = true ↔ ev.code = 4))) ∧
  (∀ s : State, statusCode s = if s.fatal = none then 0 else 4) ∧
  (∀ (program : Option (List Slot)) (image : Option MemoryImage) (l : Launched), launch program image = .ok l →
    (MissingSource.program ∈ l.notices ↔ program = none) ∧ (MissingSource.memory ∈ l.notices ↔ image = none) ∧
    ∀ m ∈ l.notices, m.code = 1)

/-- 47_host_interfaces.md, the trace event (R185): a step emits exactly one event, with the pc and the entry as stored, and the fields
of the table; where no step exists there is none. `taken` is the spec's addition (decision D18); `addr` is optional there, and that
LW and SW always give it is the model's DESIGN CHOICE (log 6). -/
def Obligations.OneTraceEventPerStep : Prop :=
  ∀ s : State,
    (¬ canStep s → traceOf s = none) ∧
    (∀ e, canStep s → slotAtPc s = some e →
      ∃ ev, traceOf s = some ev ∧ ev.pc = s.pc ∧ ev.slot = e ∧
        match slotDecode e with
        | .instr (.bne rs rt offset) =>
          ev.target = some (s.pc + 1 + offset.toInt) ∧ ev.taken = some (decide (regInt s rs ≠ regInt s rt)) ∧
          ev.mode = none ∧ ev.notice = none ∧ ev.addr = none
        | .instr (.j target) =>
          ev.target = some target.toInt ∧ ev.taken = none ∧ ev.mode = none ∧ ev.notice = none ∧ ev.addr = none
        | .instr (.jal target) =>
          ev.target = some target.toInt ∧ ev.taken = none ∧ ev.mode = none ∧ ev.notice = none ∧ ev.addr = none
        | .instr (.lw _ rs offset) =>
          ev.addr = some (effectiveAddress s rs offset) ∧
          ev.target = none ∧ ev.taken = none ∧ ev.mode = none ∧ ev.notice = none
        | .instr (.sw _ rs offset) =>
          ev.addr = some (effectiveAddress s rs offset) ∧
          ev.target = none ∧ ev.taken = none ∧ ev.mode = none ∧ ev.notice = none
        | .instr (.cache code) =>
          ev.target = none ∧ ev.taken = none ∧ ev.addr = none ∧
          ev.mode = (if code.toInt = 0 then some .disabled else if code.toInt = 1 then some .enabled
            else if code.toInt = 2 then some .flush else none) ∧
          ev.notice = (if code.toInt = 0 ∨ code.toInt = 1 ∨ code.toInt = 2 then none
            else some (.unknownCacheCode code))
        | .instr i =>
          ev.target = none ∧ ev.taken = none ∧ ev.mode = none ∧ ev.addr = none ∧ (ev.notice = none ↔ isCore i = true)
        | .unknownTag tag =>
          ev.notice = some (.unknownOpcode (.name tag)) ∧
          ev.target = none ∧ ev.taken = none ∧ ev.mode = none ∧ ev.addr = none
        | .invalid info =>
          ev.notice = some (.invalidOperand info) ∧
          ev.target = none ∧ ev.taken = none ∧ ev.mode = none ∧ ev.addr = none)
end

