-- ==== Sys2Proof/Laws/Decode.lean ====
section
/-! SUPPORT. The fields of a packed word, a word from its fields (30_encoding.md R100), and register numbers as fields. -/

namespace Sys2Proof

theorem packWord_toNat (op : BitVec 8) (a b c : BitVec 5) (imm : Word) :
    (packWord op a b c imm).toNat =
      op.toNat * 2 ^ 56 + a.toNat * 2 ^ 51 + b.toNat * 2 ^ 46 + c.toNat * 2 ^ 41 + imm.toNat := by
  simp only [packWord, BitVec.toNat_append]
  iterate 5 rw [← Nat.shiftLeft_add_eq_or_of_lt (BitVec.isLt _)]
  simp only [Nat.shiftLeft_eq, BitVec.ofNat_eq_ofNat]
  norm_num
  omega

/-- A word is its six fields, the most significant first (R100). -/
theorem word_of_fields (w : InstrWord) :
    opField w ++ aField w ++ bField w ++ cField w ++ zField w ++ immField w = w := by
  have := w.isLt
  apply BitVec.eq_of_toNat_eq
  simp only [BitVec.toNat_append]
  iterate 5 rw [← Nat.shiftLeft_add_eq_or_of_lt (BitVec.isLt _)]
  simp only [Nat.shiftLeft_eq, opField, aField, bField, cField, zField, immField, BitVec.extractLsb'_toNat,
    Nat.shiftRight_eq_div_pow]
  norm_num
  omega

section Fields
variable (op : BitVec 8) (a b c : BitVec 5) (imm : Word)

@[simp] theorem opField_packWord : opField (packWord op a b c imm) = op := by
  have := op.isLt; have := a.isLt; have := b.isLt; have := c.isLt; have := imm.isLt
  apply BitVec.eq_of_toNat_eq
  simp only [opField, BitVec.extractLsb'_toNat, packWord_toNat, Nat.shiftRight_eq_div_pow]
  norm_num; omega

@[simp] theorem aField_packWord : aField (packWord op a b c imm) = a := by
  have := op.isLt; have := a.isLt; have := b.isLt; have := c.isLt; have := imm.isLt
  apply BitVec.eq_of_toNat_eq
  simp only [aField, BitVec.extractLsb'_toNat, packWord_toNat, Nat.shiftRight_eq_div_pow]
  norm_num; omega

@[simp] theorem bField_packWord : bField (packWord op a b c imm) = b := by
  have := op.isLt; have := a.isLt; have := b.isLt; have := c.isLt; have := imm.isLt
  apply BitVec.eq_of_toNat_eq
  simp only [bField, BitVec.extractLsb'_toNat, packWord_toNat, Nat.shiftRight_eq_div_pow]
  norm_num; omega

@[simp] theorem cField_packWord : cField (packWord op a b c imm) = c := by
  have := op.isLt; have := a.isLt; have := b.isLt; have := c.isLt; have := imm.isLt
  apply BitVec.eq_of_toNat_eq
  simp only [cField, BitVec.extractLsb'_toNat, packWord_toNat, Nat.shiftRight_eq_div_pow]
  norm_num; omega

@[simp] theorem zField_packWord : zField (packWord op a b c imm) = 0 := by
  have := op.isLt; have := a.isLt; have := b.isLt; have := c.isLt; have := imm.isLt
  apply BitVec.eq_of_toNat_eq
  simp only [zField, BitVec.extractLsb'_toNat, packWord_toNat, Nat.shiftRight_eq_div_pow, BitVec.ofNat_eq_ofNat]
  norm_num; omega

@[simp] theorem immField_packWord : immField (packWord op a b c imm) = imm := by
  have := op.isLt; have := a.isLt; have := b.isLt; have := c.isLt; have := imm.isLt
  apply BitVec.eq_of_toNat_eq
  simp only [immField, BitVec.extractLsb'_toNat, packWord_toNat, Nat.shiftRight_eq_div_pow]
  norm_num; omega

end Fields

/-- Masking a word field by field. -/
theorem packWord_and (op mo : BitVec 8) (a b c ma mb mc : BitVec 5) (mz : BitVec 9) (imm mi : Word) :
    packWord op a b c imm &&& (mo ++ ma ++ mb ++ mc ++ mz ++ mi) =
      packWord (op &&& mo) (a &&& ma) (b &&& mb) (c &&& mc) (imm &&& mi) := by
  have hz : (0 : BitVec 9) = (0 : BitVec 9) &&& mz := by simp
  unfold packWord
  conv => rhs; rw [hz]
  iterate 5 rw [← BitVec.and_append]

@[simp] theorem regOf_regBits (r : RegIdx) : regOf (regBits r) = r := rfl

@[simp] theorem regBits_regOf (f : BitVec 5) : regBits (regOf f) = f := rfl

theorem regBits_toNat (r : RegIdx) : (regBits r).toNat = r.val := rfl

end Sys2Proof
end

