-- ==== Sys2Proof/Laws/Loader.lean ====
section
/-! SUPPORT. What a launch can answer (47_host_interfaces.md R181, R182, R191). -/

namespace Sys2Proof.Machine

/-- Everything a launched machine is: both inputs were accepted, and it is the reset state with them. -/
theorem launch_ok_cases {program : Option (List Slot)} {image : Option MemoryImage} {l : Launched}
    (h : launch program image = .ok l) :
    ∃ mem0, sourceMemory image = .ok mem0 ∧ (program.getD []).length ≤ Config.progLenMax ∧
      l.state = bootState (program.getD []) mem0 ∧
      l.notices = missingNotice .program program ++ missingNotice .memory image := by
  unfold launch at h
  split at h
  · cases h
  · rename_i mem0 hm
    split at h
    · rename_i hlen
      cases h
      exact ⟨mem0, hm, hlen, rfl, rfl⟩
    · cases h

/-- A missing source has its notice, and no other has (R205). -/
@[simp] theorem mem_missingNotice {α : Type} (what m : MissingSource) (source : Option α) :
    m ∈ missingNotice what source ↔ m = what ∧ source = none := by
  cases source <;> simp [missingNotice]

end Sys2Proof.Machine
end

