-- ==== Sys2Proof/Laws/Word.lean ====
section
/-! SUPPORT. wrap32 and literals as exact integers (00_scope.md R9). -/

namespace Sys2Proof.Machine

theorem wrap32_toInt (z : Int) : (wrap32 z).toInt = (z + 2147483648) % 4294967296 - 2147483648 := by
  simp only [wrap32, BitVec.toInt_ofInt, Int.bmod]
  norm_num
  split <;> omega

theorem wrap32_toInt_of_inWordRange {z : Int} (h : inWordRange z) : (wrap32 z).toInt = z := by
  rw [wrap32_toInt]; omega

theorem word_toInt_inWordRange (v : Word) : inWordRange v.toInt := by
  have := BitVec.le_toInt v
  have := BitVec.toInt_lt (x := v)
  norm_num at *
  omega

@[simp] theorem wrap32_toInt_self (v : Word) : wrap32 v.toInt = v := by
  simp [wrap32]

theorem wrap32_eq_iff (x y : Int) : wrap32 x = wrap32 y ↔ x % 4294967296 = y % 4294967296 := by
  constructor
  · intro h
    have h2 := congrArg BitVec.toInt h
    rw [wrap32_toInt, wrap32_toInt] at h2
    omega
  · intro h
    apply BitVec.eq_of_toInt_eq
    rw [wrap32_toInt, wrap32_toInt]
    omega

theorem literalInt_inWordRange (v : Word) : inWordRange (literalInt v) := word_toInt_inWordRange v

theorem lessThanWord_toInt (x y : Int) : (lessThanWord x y).toInt = if x < y then 1 else 0 := by
  unfold lessThanWord; split <;> decide

end Sys2Proof.Machine
end

