-- ==== Sys2Proof/Laws/Memory.lean ====
section
/-! SUPPORT. The laws of the data memory (20_memory.md R51 to R55): what a write does to every address, and the canonical form. -/

namespace Sys2Proof.Machine

@[simp] theorem lookup_nil (a : Word) : Memory.lookup [] a = none := rfl

theorem lookup_cons (b v a : Word) (m : Memory) :
    Memory.lookup ((b, v) :: m) a = if a = b then some v else Memory.lookup m a := rfl

theorem lookup_write (m : Memory) (a v c : Word) :
    Memory.lookup (Memory.write m a v) c = if c = a then some v else Memory.lookup m c := by
  induction m with
  | nil => simp [Memory.write, lookup_cons]
  | cons p m ih =>
    obtain ⟨b, u⟩ := p
    unfold Memory.write
    split
    · next h => subst h; simp only [lookup_cons]; split <;> simp_all
    · split
      · simp only [lookup_cons]
      · next hne _ =>
        simp only [lookup_cons, ih]
        by_cases hcb : c = b
        · subst hcb; simp [Ne.symm hne]
        · simp [hcb]

@[simp] theorem lookup_write_same (m : Memory) (a v : Word) : Memory.lookup (Memory.write m a v) a = some v := by
  simp [lookup_write]

theorem lookup_write_other {m : Memory} {a v c : Word} (h : c ≠ a) :
    Memory.lookup (Memory.write m a v) c = Memory.lookup m c := by
  simp [lookup_write, h]

@[simp] theorem read_write_same (m : Memory) (a v : Word) : Memory.read (Memory.write m a v) a = v := by
  simp [Memory.read]

theorem read_write_other {m : Memory} {a v c : Word} (h : c ≠ a) :
    Memory.read (Memory.write m a v) c = Memory.read m c := by
  simp [Memory.read, lookup_write_other h]

theorem read_of_unset {m : Memory} {a : Word} (h : Memory.lookup m a = none) : Memory.read m a = 0 := by
  simp [Memory.read, h]

/-- The first address of the list, if there is one, is above `a`. -/
def Memory.startsAbove (a : Word) : Memory → Prop
  | [] => True
  | (b, _) :: _ => a.toInt < b.toInt

theorem wf_cons (a v : Word) (m : Memory) :
    Memory.wf ((a, v) :: m) = true ↔ Memory.startsAbove a m ∧ Memory.wf m = true := by
  cases m with
  | nil => simp [Memory.wf, Memory.startsAbove]
  | cons p m => obtain ⟨b, u⟩ := p; simp [Memory.wf, Memory.startsAbove]

theorem startsAbove_write {m : Memory} {b a v : Word} (h : Memory.startsAbove b m) (hab : b.toInt < a.toInt) :
    Memory.startsAbove b (Memory.write m a v) := by
  cases m with
  | nil => simpa [Memory.write, Memory.startsAbove] using hab
  | cons p m =>
    obtain ⟨c, u⟩ := p
    unfold Memory.write
    split
    · exact hab
    · split
      · exact hab
      · exact h

theorem write_wf (m : Memory) (a v : Word) (h : Memory.wf m = true) : Memory.wf (Memory.write m a v) = true := by
  induction m with
  | nil => rfl
  | cons p m ih =>
    obtain ⟨b, u⟩ := p
    rw [wf_cons] at h
    unfold Memory.write
    split
    · next hab => subst hab; exact (wf_cons _ _ _).2 h
    · next hab =>
      split
      · next hlt => exact (wf_cons _ _ _).2 ⟨hlt, (wf_cons _ _ _).2 h⟩
      · next hlt =>
        have hne : a.toInt ≠ b.toInt := fun e => hab (BitVec.eq_of_toInt_eq e)
        exact (wf_cons _ _ _).2 ⟨startsAbove_write h.1 (by omega), ih h.2⟩

theorem foldl_write_wf (pairs : List (Word × Word)) (m : Memory) (h : Memory.wf m = true) :
    Memory.wf (pairs.foldl (fun m p => Memory.write m p.1 p.2) m) = true := by
  induction pairs generalizing m with
  | nil => exact h
  | cons p ps ih => exact ih _ (write_wf _ _ _ h)

theorem load_wf (pairs : List (Word × Word)) : Memory.wf (Memory.load pairs) = true :=
  foldl_write_wf pairs [] rfl

theorem load_append_one (pairs : List (Word × Word)) (a v : Word) :
    Memory.load (pairs ++ [(a, v)]) = Memory.write (Memory.load pairs) a v := by
  simp [Memory.load]

theorem reset_mem_wf : Memory.wf State.reset.mem = true := rfl

end Sys2Proof.Machine
end

