-- ==== Sys2Proof/Laws/PerInstr.lean ====
section
/-! SUPPORT. Statements made for each constructor of `Instr`. EncodeMatchesRow: the word of a well-formed instruction lies in the
instruction's row of spec/opcode_table.json (30_encoding.md R104, R110). -/

namespace Sys2Proof.Laws.EncodeMatchesRow

def Statement (i : Instr) : Prop :=
  wellFormed i = true → encode i &&& (tableRow i).mask = (tableRow i).pattern

theorem maskR3 (op : BitVec 8) (a b c : BitVec 5) :
    packWord op a b c 0 &&& 0xFF0001FFFFFFFFFF = packWord op 0 0 0 0 := by
  have h := packWord_and op 0xFF a b c 0 0 0 0x1FF 0 0xFFFFFFFF
  have e : (0xFF : BitVec 8) ++ (0 : BitVec 5) ++ (0 : BitVec 5) ++ (0 : BitVec 5) ++ (0x1FF : BitVec 9) ++ (0xFFFFFFFF : BitVec 32) = (0xFF0001FFFFFFFFFF : BitVec 64) := by decide
  rw [e] at h
  rw [h, show op &&& 0xFF = op from BitVec.and_allOnes]
  simp

theorem maskRI (op : BitVec 8) (a b : BitVec 5) (imm : Word) :
    packWord op a b 0 imm &&& 0xFF003FFF00000000 = packWord op 0 0 0 0 := by
  have h := packWord_and op 0xFF a b 0 0 0 0x1F 0x1FF imm 0
  have e : (0xFF : BitVec 8) ++ (0 : BitVec 5) ++ (0 : BitVec 5) ++ (0x1F : BitVec 5) ++ (0x1FF : BitVec 9) ++ (0 : BitVec 32) = (0xFF003FFF00000000 : BitVec 64) := by decide
  rw [e] at h
  rw [h, show op &&& 0xFF = op from BitVec.and_allOnes]
  simp

theorem maskI (op : BitVec 8) (imm : Word) :
    packWord op 0 0 0 imm &&& 0xFFFFFFFF00000000 = packWord op 0 0 0 0 := by
  have h := packWord_and op 0xFF 0 0 0 0x1F 0x1F 0x1F 0x1FF imm 0
  have e : (0xFF : BitVec 8) ++ (0x1F : BitVec 5) ++ (0x1F : BitVec 5) ++ (0x1F : BitVec 5) ++ (0x1FF : BitVec 9) ++ (0 : BitVec 32) = (0xFFFFFFFF00000000 : BitVec 64) := by decide
  rw [e] at h
  rw [h, show op &&& 0xFF = op from BitVec.and_allOnes]
  simp

theorem maskOp (op m : BitVec 8) :
    packWord op 0 0 0 0 &&& (m ++ (0 : BitVec 56)) = packWord (op &&& m) 0 0 0 0 := by
  have e : ∀ x : BitVec 8, packWord x 0 0 0 0 = x ++ (0 : BitVec 56) := by
    intro x
    apply BitVec.eq_of_toNat_eq
    rw [packWord_toNat, BitVec.toNat_append, ← Nat.shiftLeft_add_eq_or_of_lt (BitVec.isLt _)]
    simp [Nat.shiftLeft_eq]
  rw [e, e, BitVec.and_append]
  simp

theorem add (rd rs rt : RegIdx) : Statement (.add rd rs rt) := fun _ => (maskR3 _ _ _ _).trans rfl

theorem sub (rd rs rt : RegIdx) : Statement (.sub rd rs rt) := fun _ => (maskR3 _ _ _ _).trans rfl

theorem addi (rt rs : RegIdx) (imm : Word) : Statement (.addi rt rs imm) := fun _ => (maskRI _ _ _ _).trans rfl

theorem lw (rt rs : RegIdx) (offset : Word) : Statement (.lw rt rs offset) := fun _ => (maskRI _ _ _ _).trans rfl

theorem sw (rt rs : RegIdx) (offset : Word) : Statement (.sw rt rs offset) := fun _ => (maskRI _ _ _ _).trans rfl

theorem slt (rd rs rt : RegIdx) : Statement (.slt rd rs rt) := fun _ => (maskR3 _ _ _ _).trans rfl

theorem bne (rs rt : RegIdx) (offset : Word) : Statement (.bne rs rt offset) := fun _ => (maskRI _ _ _ _).trans rfl

theorem j (target : Word) : Statement (.j target) := fun _ => (maskI _ _).trans rfl

theorem jal (target : Word) : Statement (.jal target) := fun _ => (maskI _ _).trans rfl

theorem cache (code : Word) : Statement (.cache code) := fun _ => (maskI _ _).trans rfl

theorem halt : Statement .halt := fun _ => by decide

theorem unknown00 : Statement .unknown00 := fun _ => by decide

/-- An `op` in a row's range has the row's masked value. -/
theorem rowOp_0C0F : ∀ op : BitVec 8, opInRange 0x0C 0x0F op = true → op &&& 0xFC = 0x0C := by decide +kernel

theorem rowOp_101F : ∀ op : BitVec 8, opInRange 0x10 0x1F op = true → op &&& 0xF0 = 0x10 := by decide +kernel

theorem rowOp_203F : ∀ op : BitVec 8, opInRange 0x20 0x3F op = true → op &&& 0xE0 = 0x20 := by decide +kernel

theorem rowOp_407F : ∀ op : BitVec 8, opInRange 0x40 0x7F op = true → op &&& 0xC0 = 0x40 := by decide +kernel

theorem rowOp_80FF : ∀ op : BitVec 8, opInRange 0x80 0xFF op = true → op &&& 0x80 = 0x80 := by decide +kernel

theorem unknown0C0F (op : BitVec 8) : Statement (.unknown0C0F op) := fun h =>
  (maskOp op 0xFC).trans ((congrArg (packWord · 0 0 0 0) (rowOp_0C0F op h)).trans rfl)

theorem unknown101F (op : BitVec 8) : Statement (.unknown101F op) := fun h =>
  (maskOp op 0xF0).trans ((congrArg (packWord · 0 0 0 0) (rowOp_101F op h)).trans rfl)

theorem unknown203F (op : BitVec 8) : Statement (.unknown203F op) := fun h =>
  (maskOp op 0xE0).trans ((congrArg (packWord · 0 0 0 0) (rowOp_203F op h)).trans rfl)

theorem unknown407F (op : BitVec 8) : Statement (.unknown407F op) := fun h =>
  (maskOp op 0xC0).trans ((congrArg (packWord · 0 0 0 0) (rowOp_407F op h)).trans rfl)

theorem unknown80FF (op : BitVec 8) : Statement (.unknown80FF op) := fun h =>
  (maskOp op 0x80).trans ((congrArg (packWord · 0 0 0 0) (rowOp_80FF op h)).trans rfl)

end Sys2Proof.Laws.EncodeMatchesRow
end

