-- ==== Sys2Proof/Laws/State.lean ====
section
/-! SUPPORT. What each state update does to each field: one lemma per field per update. -/

namespace Sys2Proof.Machine

@[simp] theorem writeReg_regs (s : State) (r : RegIdx) (v : Word) : (writeReg s r v).regs = s.regs.set r v := rfl

@[simp] theorem writeReg_pc (s : State) (r : RegIdx) (v : Word) : (writeReg s r v).pc = s.pc := rfl

@[simp] theorem writeReg_running (s : State) (r : RegIdx) (v : Word) : (writeReg s r v).running = s.running := rfl

@[simp] theorem writeReg_cacheEnabled (s : State) (r : RegIdx) (v : Word) : (writeReg s r v).cacheEnabled = s.cacheEnabled := rfl

@[simp] theorem writeReg_fatal (s : State) (r : RegIdx) (v : Word) : (writeReg s r v).fatal = s.fatal := rfl

@[simp] theorem writeReg_mem (s : State) (r : RegIdx) (v : Word) : (writeReg s r v).mem = s.mem := rfl

@[simp] theorem writeReg_program (s : State) (r : RegIdx) (v : Word) : (writeReg s r v).program = s.program := rfl

@[simp] theorem setPc_regs (s : State) (t : Int) : (setPc s t).regs = s.regs := rfl

@[simp] theorem setPc_pc (s : State) (t : Int) : (setPc s t).pc = t := rfl

@[simp] theorem setPc_running (s : State) (t : Int) : (setPc s t).running = s.running := rfl

@[simp] theorem setPc_cacheEnabled (s : State) (t : Int) : (setPc s t).cacheEnabled = s.cacheEnabled := rfl

@[simp] theorem setPc_fatal (s : State) (t : Int) : (setPc s t).fatal = s.fatal := rfl

@[simp] theorem setPc_mem (s : State) (t : Int) : (setPc s t).mem = s.mem := rfl

@[simp] theorem setPc_program (s : State) (t : Int) : (setPc s t).program = s.program := rfl

@[simp] theorem advance_regs (s : State) : (advance s).regs = s.regs := rfl

@[simp] theorem advance_pc (s : State) : (advance s).pc = s.pc + 1 := rfl

@[simp] theorem advance_running (s : State) : (advance s).running = s.running := rfl

@[simp] theorem advance_cacheEnabled (s : State) : (advance s).cacheEnabled = s.cacheEnabled := rfl

@[simp] theorem advance_fatal (s : State) : (advance s).fatal = s.fatal := rfl

@[simp] theorem advance_mem (s : State) : (advance s).mem = s.mem := rfl

@[simp] theorem advance_program (s : State) : (advance s).program = s.program := rfl

@[simp] theorem finishReg_regs (s : State) (r : RegIdx) (v : Word) : (finishReg s r v).regs = s.regs.set r v := rfl

@[simp] theorem finishReg_pc (s : State) (r : RegIdx) (v : Word) : (finishReg s r v).pc = s.pc + 1 := rfl

@[simp] theorem finishReg_running (s : State) (r : RegIdx) (v : Word) : (finishReg s r v).running = s.running := rfl

@[simp] theorem finishReg_cacheEnabled (s : State) (r : RegIdx) (v : Word) : (finishReg s r v).cacheEnabled = s.cacheEnabled := rfl

@[simp] theorem finishReg_fatal (s : State) (r : RegIdx) (v : Word) : (finishReg s r v).fatal = s.fatal := rfl

@[simp] theorem finishReg_mem (s : State) (r : RegIdx) (v : Word) : (finishReg s r v).mem = s.mem := rfl

@[simp] theorem finishReg_program (s : State) (r : RegIdx) (v : Word) : (finishReg s r v).program = s.program := rfl

@[simp] theorem storeWord_regs (s : State) (a v : Word) : (storeWord s a v).regs = s.regs := rfl

@[simp] theorem storeWord_pc (s : State) (a v : Word) : (storeWord s a v).pc = s.pc := rfl

@[simp] theorem storeWord_running (s : State) (a v : Word) : (storeWord s a v).running = s.running := rfl

@[simp] theorem storeWord_cacheEnabled (s : State) (a v : Word) : (storeWord s a v).cacheEnabled = s.cacheEnabled := rfl

@[simp] theorem storeWord_fatal (s : State) (a v : Word) : (storeWord s a v).fatal = s.fatal := rfl

@[simp] theorem storeWord_mem (s : State) (a v : Word) : (storeWord s a v).mem = Memory.write s.mem a v := rfl

@[simp] theorem storeWord_program (s : State) (a v : Word) : (storeWord s a v).program = s.program := rfl

@[simp] theorem setRunning_regs (s : State) (b : Bool) : (setRunning s b).regs = s.regs := rfl

@[simp] theorem setRunning_pc (s : State) (b : Bool) : (setRunning s b).pc = s.pc := rfl

@[simp] theorem setRunning_running (s : State) (b : Bool) : (setRunning s b).running = b := rfl

@[simp] theorem setRunning_cacheEnabled (s : State) (b : Bool) : (setRunning s b).cacheEnabled = s.cacheEnabled := rfl

@[simp] theorem setRunning_fatal (s : State) (b : Bool) : (setRunning s b).fatal = s.fatal := rfl

@[simp] theorem setRunning_mem (s : State) (b : Bool) : (setRunning s b).mem = s.mem := rfl

@[simp] theorem setRunning_program (s : State) (b : Bool) : (setRunning s b).program = s.program := rfl

@[simp] theorem setCacheEnabled_regs (s : State) (b : Bool) : (setCacheEnabled s b).regs = s.regs := rfl

@[simp] theorem setCacheEnabled_pc (s : State) (b : Bool) : (setCacheEnabled s b).pc = s.pc := rfl

@[simp] theorem setCacheEnabled_running (s : State) (b : Bool) : (setCacheEnabled s b).running = s.running := rfl

@[simp] theorem setCacheEnabled_cacheEnabled (s : State) (b : Bool) : (setCacheEnabled s b).cacheEnabled = b := rfl

@[simp] theorem setCacheEnabled_fatal (s : State) (b : Bool) : (setCacheEnabled s b).fatal = s.fatal := rfl

@[simp] theorem setCacheEnabled_mem (s : State) (b : Bool) : (setCacheEnabled s b).mem = s.mem := rfl

@[simp] theorem setCacheEnabled_program (s : State) (b : Bool) : (setCacheEnabled s b).program = s.program := rfl

@[simp] theorem raiseInvalidOperand_regs (info : InvalidInfo) (s : State) : (raiseInvalidOperand info s).regs = s.regs := rfl

@[simp] theorem raiseInvalidOperand_pc (info : InvalidInfo) (s : State) : (raiseInvalidOperand info s).pc = s.pc := rfl

@[simp] theorem raiseInvalidOperand_running (info : InvalidInfo) (s : State) : (raiseInvalidOperand info s).running = s.running := rfl

@[simp] theorem raiseInvalidOperand_cacheEnabled (info : InvalidInfo) (s : State) : (raiseInvalidOperand info s).cacheEnabled = s.cacheEnabled := rfl

@[simp] theorem raiseInvalidOperand_fatal (info : InvalidInfo) (s : State) : (raiseInvalidOperand info s).fatal = some info := rfl

@[simp] theorem raiseInvalidOperand_mem (info : InvalidInfo) (s : State) : (raiseInvalidOperand info s).mem = s.mem := rfl

@[simp] theorem raiseInvalidOperand_program (info : InvalidInfo) (s : State) : (raiseInvalidOperand info s).program = s.program := rfl

@[simp] theorem skipUnknown_regs (s : State) : (skipUnknown s).regs = s.regs := rfl

@[simp] theorem skipUnknown_pc (s : State) : (skipUnknown s).pc = s.pc + 1 := rfl

@[simp] theorem skipUnknown_running (s : State) : (skipUnknown s).running = s.running := rfl

@[simp] theorem skipUnknown_cacheEnabled (s : State) : (skipUnknown s).cacheEnabled = s.cacheEnabled := rfl

@[simp] theorem skipUnknown_fatal (s : State) : (skipUnknown s).fatal = s.fatal := rfl

@[simp] theorem skipUnknown_mem (s : State) : (skipUnknown s).mem = s.mem := rfl

@[simp] theorem skipUnknown_program (s : State) : (skipUnknown s).program = s.program := rfl

@[simp] theorem bootState_regs (p : List Slot) (m : Memory) : (bootState p m).regs = Vector.replicate 32 0 := rfl

@[simp] theorem bootState_pc (p : List Slot) (m : Memory) : (bootState p m).pc = 0 := rfl

@[simp] theorem bootState_running (p : List Slot) (m : Memory) : (bootState p m).running = true := rfl

@[simp] theorem bootState_cacheEnabled (p : List Slot) (m : Memory) : (bootState p m).cacheEnabled = Config.cacheReset := rfl

@[simp] theorem bootState_fatal (p : List Slot) (m : Memory) : (bootState p m).fatal = none := rfl

@[simp] theorem bootState_mem (p : List Slot) (m : Memory) : (bootState p m).mem = m := rfl

@[simp] theorem bootState_program (p : List Slot) (m : Memory) : (bootState p m).program = p := rfl

@[simp] theorem placeNext_regs (s : State) (e : Slot) : (placeNext s e).regs = s.regs := rfl

@[simp] theorem placeNext_pc (s : State) (e : Slot) : (placeNext s e).pc = (s.pc.toNat : Int) := rfl

@[simp] theorem placeNext_running (s : State) (e : Slot) : (placeNext s e).running = true := rfl

@[simp] theorem placeNext_cacheEnabled (s : State) (e : Slot) : (placeNext s e).cacheEnabled = s.cacheEnabled := rfl

@[simp] theorem placeNext_fatal (s : State) (e : Slot) : (placeNext s e).fatal = none := rfl

@[simp] theorem placeNext_mem (s : State) (e : Slot) : (placeNext s e).mem = s.mem := rfl

@[simp] theorem placeNext_program (s : State) (e : Slot) : (placeNext s e).program = placeSlot s.program s.pc.toNat e := rfl

@[simp] theorem applyCacheDirective_regs (s : State) (d : CacheDirective) : (applyCacheDirective s d).regs = s.regs := by
  cases d <;> rfl

@[simp] theorem applyCacheDirective_pc (s : State) (d : CacheDirective) : (applyCacheDirective s d).pc = s.pc := by
  cases d <;> rfl

@[simp] theorem applyCacheDirective_running (s : State) (d : CacheDirective) : (applyCacheDirective s d).running = s.running := by
  cases d <;> rfl

@[simp] theorem applyCacheDirective_fatal (s : State) (d : CacheDirective) : (applyCacheDirective s d).fatal = s.fatal := by
  cases d <;> rfl

@[simp] theorem applyCacheDirective_mem (s : State) (d : CacheDirective) : (applyCacheDirective s d).mem = s.mem := by
  cases d <;> rfl

@[simp] theorem applyCacheDirective_program (s : State) (d : CacheDirective) : (applyCacheDirective s d).program = s.program := by
  cases d <;> rfl

/-! ## The status interface -/

@[simp] theorem statusReport_stop (s : State) : (statusReport s).stop = stopReason s := rfl

@[simp] theorem statusReport_code (s : State) : (statusReport s).code = statusCode s := rfl

@[simp] theorem statusReport_pc (s : State) : (statusReport s).pc = s.pc := rfl

@[simp] theorem statusReport_running (s : State) : (statusReport s).running = s.running := rfl

@[simp] theorem statusReport_cacheEnabled (s : State) : (statusReport s).cacheEnabled = s.cacheEnabled := rfl

@[simp] theorem statusReport_frozen (s : State) :
    (statusReport s).frozen = (stopReason s).map fun _ => contentsOf s := rfl

end Sys2Proof.Machine
end

