-- ==== Sys2Proof/Laws/Registers.lean ====
section
/-! SUPPORT. Reading a register after an update (10_state.md R20, R21). -/

namespace Sys2Proof.Machine

theorem readReg_writeReg (s : State) (r q : RegIdx) (v : Word) :
    readReg (writeReg s r v) q = if q = r then v else readReg s q := by
  simp only [readReg, writeReg, Vector.get_eq_getElem, Vector.getElem_set]
  by_cases h : q = r
  · subst h; simp
  · have : (r : Nat) ≠ q := fun e => h (Fin.ext e.symm)
    simp [h, this]

@[simp] theorem readReg_writeReg_same (s : State) (r : RegIdx) (v : Word) : readReg (writeReg s r v) r = v := by
  simp [readReg_writeReg]

theorem readReg_writeReg_other {s : State} {r q : RegIdx} {v : Word} (h : q ≠ r) :
    readReg (writeReg s r v) q = readReg s q := by
  simp [readReg_writeReg, h]

@[simp] theorem readReg_setPc (s : State) (t : Int) (q : RegIdx) : readReg (setPc s t) q = readReg s q := rfl

@[simp] theorem readReg_advance (s : State) (q : RegIdx) : readReg (advance s) q = readReg s q := rfl

@[simp] theorem readReg_storeWord (s : State) (a v : Word) (q : RegIdx) : readReg (storeWord s a v) q = readReg s q := rfl

@[simp] theorem readReg_setRunning (s : State) (b : Bool) (q : RegIdx) : readReg (setRunning s b) q = readReg s q := rfl

@[simp] theorem readReg_setCacheEnabled (s : State) (b : Bool) (q : RegIdx) : readReg (setCacheEnabled s b) q = readReg s q := rfl

@[simp] theorem readReg_skipUnknown (s : State) (q : RegIdx) : readReg (skipUnknown s) q = readReg s q := rfl

@[simp] theorem readReg_raiseInvalidOperand (info : InvalidInfo) (s : State) (q : RegIdx) :
    readReg (raiseInvalidOperand info s) q = readReg s q := rfl

@[simp] theorem readReg_applyCacheDirective (s : State) (d : CacheDirective) (q : RegIdx) :
    readReg (applyCacheDirective s d) q = readReg s q := by
  cases d <;> rfl

theorem readReg_finishReg (s : State) (r q : RegIdx) (v : Word) :
    readReg (finishReg s r v) q = if q = r then v else readReg s q := readReg_writeReg s r q v

end Sys2Proof.Machine
end

