-- ==== Sys2Proof/Laws/Step.lean ====
section
/-! SUPPORT. What `exec`, `fetch` and `step` can do, said once: every instruction completes; a fetch succeeds exactly where a step
exists; a next state comes from the arm of the decoded entry. -/

namespace Sys2Proof.Machine

/-- The state each arm of `exec` builds. -/
@[simp] def effect (i : Instr) (s : State) : State :=
  match i with
  | .add rd rs rt => finishReg s rd (wrap32 (regInt s rs + regInt s rt))
  | .sub rd rs rt => finishReg s rd (wrap32 (regInt s rs - regInt s rt))
  | .addi rt rs imm => finishReg s rt (wrap32 (regInt s rs + literalInt imm))
  | .lw rt rs offset => finishReg s rt (loadWord s (effectiveAddress s rs offset))
  | .sw rt rs offset => advance (storeWord s (effectiveAddress s rs offset) (readReg s rt))
  | .slt rd rs rt => finishReg s rd (lessThanWord (regInt s rs) (regInt s rt))
  | .bne rs rt offset => if registersDiffer s rs rt then setPc s (branchTarget s offset) else advance s
  | .j target => setPc s (jumpTarget target)
  | .jal target => setPc (writeReg s Config.link (linkValue s)) (jumpTarget target)
  | .cache code => advance (applyCacheDirective s (cacheDirective code))
  | .halt => setPc (setRunning s false) (s.pc + Config.haltPcInc)
  | .unknown00 => skipUnknown s
  | .unknown0C0F _ => skipUnknown s
  | .unknown101F _ => skipUnknown s
  | .unknown203F _ => skipUnknown s
  | .unknown407F _ => skipUnknown s
  | .unknown80FF _ => skipUnknown s

/-- Every instruction answers a next state, and it is the one its arm builds. -/
theorem exec_eq (i : Instr) (s : State) : exec i s = .next (effect i s) := by
  cases i <;> rfl

theorem exec_next_iff (i : Instr) (s t : State) : exec i s = .next t ↔ t = effect i s := by
  rw [exec_eq, Host.Outcome.next.injEq, eq_comm]

/-- No instruction changes the program or `fatal`. -/
theorem exec_program_fatal {i : Instr} {s t : State} (h : exec i s = .next t) :
    t.program = s.program ∧ t.fatal = s.fatal := by
  rw [(exec_next_iff i s t).1 h]
  cases i with
  | bne rs rt offset => simp only [effect]; split <;> exact ⟨rfl, rfl⟩
  | cache code => simp [effect]
  | _ => exact ⟨rfl, rfl⟩

/-- A fetch gives the entry at the pc, and does so exactly where a step exists (R121, R183). -/
theorem fetch_ok_iff (s : State) (e : Slot) : fetch s = .ok e ↔ canStep s ∧ s.program[s.pc.toNat]? = some e := by
  unfold fetch fetchFrom canStep progLen
  cases hf : s.fatal with
  | some info => simp
  | none =>
    cases hr : s.running with
    | false => simp
    | true =>
      by_cases hp : s.pc < 0
      · simp [hp]
      · cases he : s.program[s.pc.toNat]? with
        | none => simp [hp]
        | some e' =>
          have := (List.getElem?_eq_some_iff.1 he).1
          simp [hp]
          omega

theorem exists_fetch_of_canStep {s : State} (h : canStep s) : ∃ e, fetch s = .ok e := by
  have hl : s.pc.toNat < s.program.length := by have := h.2.2.2; unfold progLen at this; omega
  exact ⟨s.program[s.pc.toNat], (fetch_ok_iff _ _).2 ⟨h, List.getElem?_eq_getElem hl⟩⟩

/-- Why a fetch fails (R240): each reason, exactly. -/
theorem fetch_error_iff (s : State) (f : Fault) : fetch s = .error f ↔
    (∃ info, s.fatal = some info ∧ f = .fatal info) ∨
    (s.fatal = none ∧ s.running = false ∧ f = .haltInstr) ∨
    (s.fatal = none ∧ s.running = true ∧ s.pc < 0 ∧ f = .pcBelowZero) ∨
    (s.fatal = none ∧ s.running = true ∧ progLen s ≤ s.pc ∧ f = .pcPastEnd) := by
  unfold fetch fetchFrom progLen
  cases hf : s.fatal with
  | some info => simp only [Except.error.injEq, Option.some.injEq, exists_eq_left', reduceCtorEq, false_and, or_false]; exact eq_comm
  | none =>
    cases hr : s.running with
    | false =>
      simp only [Bool.false_eq_true, if_false, Except.error.injEq, reduceCtorEq, false_and, exists_false, true_and, false_or, or_false]
      exact eq_comm
    | true =>
      by_cases hp : s.pc < 0
      · have hl : ¬ (s.program.length : Int) ≤ s.pc := by omega
        simp only [hp, hl, if_true, Except.error.injEq, reduceCtorEq, false_and, exists_false, true_and, false_or, or_false]
        exact eq_comm
      · cases he : s.program[s.pc.toNat]? with
        | none =>
          have hl : (s.program.length : Int) ≤ s.pc := by have := List.getElem?_eq_none_iff.1 he; omega
          simp only [hp, hl, if_true, if_false, Except.error.injEq, reduceCtorEq, false_and, exists_false, true_and, false_or]
          exact eq_comm
        | some e' =>
          have hl : ¬ (s.program.length : Int) ≤ s.pc := by have := (List.getElem?_eq_some_iff.1 he).1; omega
          simp [hp, hl]

theorem stopReason_eq_none_iff (s : State) : stopReason s = none ↔ canStep s := by
  unfold stopReason
  constructor
  · intro h
    cases hf : fetch s with
    | error f => simp [hf] at h
    | ok e => exact ((fetch_ok_iff s e).1 hf).1
  · intro h
    obtain ⟨e, he⟩ := exists_fetch_of_canStep h
    simp [he]

theorem step_of_fetch {s : State} {e : Slot} (h : fetch s = .ok e) : step s = execDecoded (slotDecode e) s := by
  simp [step, cycle, h]

theorem step_of_stopped {s : State} {f : Fault} (h : fetch s = .error f) : step s = .fault f := by
  simp [step, cycle, h]

/-- All a step to a next state can be (R122, R125): an instruction, an unknown tag, or the fatal stop. -/
theorem step_next_cases {s t : State} (h : step s = .next t) :
    ∃ e, fetch s = .ok e ∧
      ((∃ i, slotDecode e = .instr i ∧ exec i s = .next t) ∨
       (∃ tag, slotDecode e = .unknownTag tag ∧ t = skipUnknown s) ∨
       (∃ info, slotDecode e = .invalid info ∧ t = raiseInvalidOperand info s)) := by
  cases hf : fetch s with
  | error f => rw [step_of_stopped hf] at h; cases h
  | ok e =>
    rw [step_of_fetch hf] at h
    refine ⟨e, rfl, ?_⟩
    cases hd : slotDecode e with
    | instr i => rw [hd] at h; exact .inl ⟨i, rfl, h⟩
    | unknownTag tag =>
      rw [hd] at h; injection h with h; exact .inr (.inl ⟨tag, rfl, h.symm⟩)
    | invalid info =>
      rw [hd] at h; injection h with h; exact .inr (.inr ⟨info, rfl, h.symm⟩)

theorem runSteps_zero (s : State) : runSteps 0 s = .next s := rfl

theorem run_succ (M : Host.Core) (n : Nat) (s : M.State) : M.run (n + 1) s =
    match M.step s with
    | .next t => M.run n t
    | .fault f => .fault f
    | .refused r => .refused r := rfl

theorem runSteps_succ (n : Nat) (s : State) : runSteps (n + 1) s =
    match step s with
    | .next t => runSteps n t
    | .fault f => .fault f
    | .refused r => .refused r := by
  refine (run_succ core n s).trans ?_
  have h : core.step s = step s := rfl
  cases hs : step s <;> rw [hs] at h <;> rw [h] <;> rfl

end Sys2Proof.Machine
end

