-- ==== Sys2Proof/Laws/Unbounded.lean ====
section
/-! SUPPORT. A state read as one on unbounded integers (Machine/Unbounded.lean): each register, each memory operation and each
decoded literal is the integer its word stands for (00_scope.md R9, R12). -/

namespace Sys2Proof.Machine

@[simp] theorem sourceOf_pc (s : State) : (sourceOf s).pc = s.pc := rfl

@[simp] theorem sourceOf_running (s : State) : (sourceOf s).running = s.running := rfl

@[simp] theorem sourceOf_cacheEnabled (s : State) : (sourceOf s).cacheEnabled = s.cacheEnabled := rfl

@[simp] theorem sourceOf_fatal (s : State) : (sourceOf s).fatal = s.fatal := rfl

@[simp] theorem sourceOf_mem (s : State) : (sourceOf s).mem = snapshotOf s.mem := rfl

@[simp] theorem sourceOf_program (s : State) : (sourceOf s).program = s.program := rfl

@[simp] theorem sourceOf_get (s : State) (r : RegIdx) : (sourceOf s).regs.get r = regInt s r := by
  simp [sourceOf, regInt, readReg, Vector.get_eq_getElem]

/-- The two machines fetch the same entry or stop for the same reason. -/
theorem fetchFrom_sourceOf (s : State) :
    fetchFrom (sourceOf s).fatal (sourceOf s).running (sourceOf s).pc (sourceOf s).program = fetch s := rfl

theorem sourceOf_writeReg (s : State) (r : RegIdx) (v : Word) :
    sourceOf (writeReg s r v) = { sourceOf s with regs := (sourceOf s).regs.set r v.toInt } := by
  simp [sourceOf, writeReg, Vector.map_set]

/-- A result whose word is exactly `z` is written alike by both machines. -/
theorem sourceFinish_sourceOf {s : State} {r : RegIdx} {v : Word} {z : Int} (h : v.toInt = z) :
    sourceFinish (sourceOf s) r z = sourceOf (finishReg s r v) := by
  subst h
  simp [sourceFinish, finishReg, advance, setPc, sourceOf, writeReg, Vector.map_set]

theorem lookup_snapshotOf (m : Memory) (a : Word) :
    SourceMemory.lookup (snapshotOf m) a.toInt = (Memory.lookup m a).map BitVec.toInt := by
  induction m with
  | nil => rfl
  | cons p m ih =>
    obtain ⟨b, v⟩ := p
    simp only [snapshotOf, List.map_cons, SourceMemory.lookup, lookup_cons, BitVec.toInt_inj] at *
    split <;> simp_all

theorem read_snapshotOf (m : Memory) (a : Word) :
    SourceMemory.read (snapshotOf m) a.toInt = (Memory.read m a).toInt := by
  unfold SourceMemory.read Memory.read
  rw [lookup_snapshotOf]
  cases Memory.lookup m a <;> rfl

theorem write_snapshotOf (m : Memory) (a v : Word) :
    SourceMemory.write (snapshotOf m) a.toInt v.toInt = snapshotOf (Memory.write m a v) := by
  induction m with
  | nil => rfl
  | cons p m ih =>
    obtain ⟨b, u⟩ := p
    simp only [snapshotOf, List.map_cons, SourceMemory.write, Memory.write, BitVec.toInt_inj] at *
    split
    · simp_all
    · split <;> simp_all

/-- A literal in range is read alike by both machines. -/
theorem sourceLiteral_eq {t : Token} (h : ∀ v, literalValue t = some v → inWordRange v) :
    sourceLiteral t = match parseLiteral t with | .ok v => .ok v.toInt | .error f => .error f := by
  unfold sourceLiteral parseLiteral
  cases hl : literalValue t with
  | none => rfl
  | some v =>
    have hv := h v hl
    have e : (BitVec.ofInt 32 v).toInt = v := wrap32_toInt_of_inWordRange hv
    unfold inWordRange at hv
    simp [hv, e]

/-- A memory token whose offset is in range is read alike by both machines. -/
theorem sourceMemoryToken_eq {t : Token} (h : tokenLiteralInRange .memory t) :
    parseMemoryWith sourceLiteral t =
      match parseMemory t with | .ok v => .ok (v.1.toInt, v.2) | .error f => .error f := by
  unfold parseMemory parseMemoryWith
  cases hs : splitAtOpen t with
  | none => rfl
  | some p =>
    obtain ⟨before, after⟩ := p
    simp only
    cases dropClose after with
    | none => rfl
    | some inside =>
      simp only [sourceLiteral_eq (fun v hv => h before after v hs hv)]
      cases parseLiteral before <;> cases parseRegister inside <;> rfl

end Sys2Proof.Machine
end

