-- ==== Sys2Proof/Tests/Slice0.lean ====
section
/-! SUPPORT. Tests with the values of spec/95_test_vectors.md (parts 2.1 to 2.7), the smoke test of the well-formedness check, and
a witness for the hypotheses of each statement of Certificates/Slice0/Obligations.lean that has any. -/

namespace Sys2Proof.Machine.Tests

/-! ## Helpers -/

/-- A reset machine but for the pc, some registers, memory and the program. -/
def machine (pc : Int) (regs : List (RegIdx × Word)) (mem : Memory) (program : List Slot) : State :=
  regs.foldl (fun s p => writeReg s p.1 p.2) { bootState program mem with pc := pc }

/-- The next state of a step, if it has one. -/
def after : Host.Outcome State Fault Refusal → Option State
  | .next t => some t
  | .fault _ => none
  | .refused _ => none

/-- The reason a step stops, if it does. -/
def stopOf : Host.Outcome State Fault Refusal → Option Fault
  | .next _ => none
  | .fault f => some f
  | .refused _ => none

/-- Register `q` after an instruction, from registers 1 and 2 with the values given. -/
def regAfter (i : Instr) (q : RegIdx) (a b : Int) : Option Int :=
  (after (exec i (machine 0 [(1, wrap32 a), (2, wrap32 b)] [] []))).map fun t => regInt t q

/-- The pc after an instruction at pc 10, from registers 1 and 2 with the values given. -/
def pcAfter (i : Instr) (a b : Word) : Option Int :=
  (after (exec i (machine 10 [(1, a), (2, b)] [] []))).map fun t => t.pc

/-- Memory after an instruction, from registers 1 and 3 and the memory given. -/
def memAfter (i : Instr) (a c : Word) (mem : Memory) : Option Memory :=
  (after (exec i (machine 0 [(1, a), (3, c)] mem []))).map fun t => t.mem

/-- A program of one entry, at pc 0. -/
def one (e : Slot) : State := machine 0 [] [] [e]

def haltRecord : Record := ⟨['H', 'A', 'L', 'T'], []⟩
def fooRecord : Record := ⟨['F', 'O', 'O'], [['R', '9', '9'], ['j', 'u', 'n', 'k']]⟩
def badAdd : Record := ⟨['A', 'D', 'D'], [['R', '3', '2'], ['R', '1'], ['R', '1']]⟩

/-! ## The well-formedness check refuses an `op` outside its row -/

theorem test_wf_0C0F : wellFormed (.unknown0C0F 0x0B) = false ∧ wellFormed (.unknown0C0F 0x10) = false ∧
    wellFormed (.unknown0C0F 0x0C) = true ∧ wellFormed (.unknown0C0F 0x0F) = true := by decide

theorem test_wf_101F : wellFormed (.unknown101F 0x0F) = false ∧ wellFormed (.unknown101F 0x20) = false ∧
    wellFormed (.unknown101F 0x10) = true ∧ wellFormed (.unknown101F 0x1F) = true := by decide

theorem test_wf_203F : wellFormed (.unknown203F 0x1F) = false ∧ wellFormed (.unknown203F 0x40) = false ∧
    wellFormed (.unknown203F 0x20) = true ∧ wellFormed (.unknown203F 0x3F) = true := by decide

theorem test_wf_407F : wellFormed (.unknown407F 0x3F) = false ∧ wellFormed (.unknown407F 0x80) = false ∧
    wellFormed (.unknown407F 0x40) = true ∧ wellFormed (.unknown407F 0x7F) = true := by decide

theorem test_wf_80FF : wellFormed (.unknown80FF 0x7F) = false ∧ wellFormed (.unknown80FF 0x80) = true ∧
    wellFormed (.unknown80FF 0xFF) = true := by decide

/-! ## Words written out (95, 2.2): each constructor's decoding, both directions -/

theorem test_word_add : wordDecode 0x0118440000000000 = .instr (.add 3 1 2) ∧
    wordDecode 0x01FFFE0000000000 = .instr (.add 31 31 31) ∧ encode (.add 3 1 2) = 0x0118440000000000 := by decide

theorem test_word_sub : wordDecode 0x0218440000000000 = .instr (.sub 3 1 2) ∧
    encode (.sub 3 1 2) = 0x0218440000000000 := by decide

theorem test_word_addi : wordDecode 0x032000000000000A = .instr (.addi 4 0 10) ∧
    wordDecode 0x03084000FFFFFFFF = .instr (.addi 1 1 (-1)) ∧ encode (.addi 1 1 (-1)) = 0x03084000FFFFFFFF := by decide

theorem test_word_lw : wordDecode 0x0418400000000000 = .instr (.lw 3 1 0) ∧
    wordDecode 0x04FF8000FFFFFFFC = .instr (.lw 31 30 (-4)) ∧ encode (.lw 31 30 (-4)) = 0x04FF8000FFFFFFFC := by decide

theorem test_word_sw : wordDecode 0x0511400000000004 = .instr (.sw 2 5 4) ∧
    encode (.sw 2 5 4) = 0x0511400000000004 := by decide

theorem test_word_slt : wordDecode 0x0618820000000000 = .instr (.slt 3 2 1) ∧
    encode (.slt 3 1 2) = 0x0618440000000000 := by decide

theorem test_word_bne : wordDecode 0x0708800000000005 = .instr (.bne 1 2 5) ∧
    wordDecode 0x07080000FFFFFFFD = .instr (.bne 1 0 (-3)) ∧ encode (.bne 1 0 (-3)) = 0x07080000FFFFFFFD := by decide

theorem test_word_j : wordDecode 0x08000000FFFFFFFF = .instr (.j (-1)) ∧
    encode (.j 2) = 0x0800000000000002 := by decide

theorem test_word_jal : wordDecode 0x090000007FFFFFFF = .instr (.jal 2147483647) ∧
    encode (.jal 4) = 0x0900000000000004 := by decide

theorem test_word_cache : wordDecode 0x0A00000080000000 = .instr (.cache (-2147483648)) ∧
    encode (.cache 7) = 0x0A00000000000007 := by decide

theorem test_word_halt : wordDecode 0x0B00000000000000 = .instr .halt ∧ encode .halt = 0x0B00000000000000 := by decide

theorem test_word_unknown : wordDecode 0x0000000000000000 = .instr .unknown00 ∧
    wordDecode 0x00FFFFFFFFFFFFFF = .instr .unknown00 ∧
    wordDecode 0x0C00000000000000 = .instr (.unknown0C0F 0x0C) ∧
    wordDecode 0x1000000000000001 = .instr (.unknown101F 0x10) ∧
    wordDecode 0x2A00000000000000 = .instr (.unknown203F 0x2A) ∧
    wordDecode 0x7FFFFFFFFFFFFFFF = .instr (.unknown407F 0x7F) ∧
    wordDecode 0xFFFFFFFFFFFFFFFF = .instr (.unknown80FF 0xFF) := by decide

theorem test_word_mbz : wordDecode 0x0118440000000001 = .invalid .mbz ∧ wordDecode 0x0118440100000000 = .invalid .mbz ∧
    wordDecode 0x0308420000000005 = .invalid .mbz ∧ wordDecode 0x0808000000000002 = .invalid .mbz ∧
    wordDecode 0x0B00000000000001 = .invalid .mbz ∧ wordDecode 0x0B08000000000000 = .invalid .mbz := by decide

/-! ## Records (95, 2.1) -/

theorem test_record_case_and_zero :
    recordDecode ⟨['a', 'd', 'd'], [['R', '0', '3'], ['R', '1'], ['R', '2']]⟩ = .instr (.add 3 1 2) := by decide

theorem test_record_register_tokens : recordDecode badAdd = .invalid (.operand 1 ['R', '3', '2'] .registerRange) ∧
    recordDecode ⟨['A', 'D', 'D'], [['r', '3'], ['R', '1'], ['R', '2']]⟩ =
      .invalid (.operand 1 ['r', '3'] .malformedRegister) ∧
    recordDecode ⟨['A', 'D', 'D'], [['R', '3'], ['R', '1'], ['5']]⟩ =
      .invalid (.operand 3 ['5'] .malformedRegister) := by decide

theorem test_record_arity : recordDecode ⟨['A', 'D', 'D'], [['R', '4', '0'], ['R', '4', '1']]⟩ = .invalid .arity ∧
    recordDecode ⟨['J'], []⟩ = .invalid .arity ∧ recordDecode ⟨['H', 'A', 'L', 'T'], [['R', '1']]⟩ = .invalid .arity ∧
    recordDecode haltRecord = .instr .halt := by decide

theorem test_literals : parseLiteral ['-', '1'] = .ok (-1) ∧ parseLiteral ['+', '7'] = .ok 7 ∧
    parseLiteral ['2', '1', '4', '7', '4', '8', '3', '6', '4', '7'] = .ok 2147483647 ∧
    parseLiteral ['2', '1', '4', '7', '4', '8', '3', '6', '4', '8'] = .error .literalRange ∧
    parseLiteral ['-', '2', '1', '4', '7', '4', '8', '3', '6', '4', '8'] = .ok (-2147483648) ∧
    parseLiteral ['0', 'x', '1', '0'] = .error .malformedLiteral ∧ parseLiteral [] = .error .malformedLiteral ∧
    parseLiteral ['R', '7'] = .error .malformedLiteral := by decide

theorem test_memory_tokens : parseMemory ['-', '4', '(', 'R', '3', '0', ')'] = .ok (-4, 30) ∧
    parseMemory ['(', 'R', '1', ')'] = .error .malformedMemory ∧
    parseMemory ['4', '(', 'R', '3', '2', ')'] = .error .registerRange ∧
    parseMemory ['4', ' ', '(', 'R', '1', ')'] = .error .malformedMemory ∧
    parseMemory ['R', '1'] = .error .malformedMemory ∧
    parseMemory ['4', '(', 'R', '1', ')', ')'] = .error .malformedMemory := by decide

theorem test_record_shapes :
    recordDecode ⟨['L', 'W'], [['R', '3'], ['0', '(', 'R', '1', ')']]⟩ = .instr (.lw 3 1 0) ∧
    recordDecode ⟨['S', 'W'], [['R', '2'], ['4', '(', 'R', '5', ')']]⟩ = .instr (.sw 2 5 4) ∧
    recordDecode ⟨['B', 'N', 'E'], [['R', '1'], ['R', '0'], ['-', '3']]⟩ = .instr (.bne 1 0 (-3)) ∧
    recordDecode ⟨['J', 'A', 'L'], [['4']]⟩ = .instr (.jal 4) ∧
    recordDecode ⟨['C', 'A', 'C', 'H', 'E'], [['-', '1']]⟩ = .instr (.cache (-1)) := by decide

theorem test_record_unknown : recordDecode fooRecord = .unknownTag ['F', 'O', 'O'] ∧
    recordDecode ⟨['A', 'D', 'D', 'X'], [['R', '1'], ['R', '2'], ['R', '3']]⟩ = .unknownTag ['A', 'D', 'D', 'X'] := by decide

/-! ## One step (95, 2.3 to 2.7) -/

theorem test_add_wraps : regAfter (.add 3 1 2) 3 2147483647 1 = some (-2147483648) ∧
    regAfter (.add 3 1 2) 3 (-2147483648) (-1) = some 2147483647 ∧
    regAfter (.add 3 1 2) 3 5 7 = some 12 := by decide +kernel

theorem test_add_aliases : regAfter (.add 1 1 1) 1 5 7 = some 10 ∧ regAfter (.add 0 1 2) 0 5 7 = some 12 := by decide +kernel

theorem test_sub_order : regAfter (.sub 3 1 2) 3 5 7 = some (-2) ∧ regAfter (.sub 3 1 2) 3 7 5 = some 2 := by decide +kernel

theorem test_sub_wraps : regAfter (.sub 3 1 2) 3 2147483647 (-1) = some (-2147483648) ∧
    regAfter (.sub 3 1 2) 3 (-2147483648) 2147483647 = some 1 := by decide +kernel

theorem test_addi : regAfter (.addi 2 1 (-1)) 2 10 0 = some 9 ∧
    regAfter (.addi 2 1 2147483647) 2 5 0 = some (-2147483644) := by decide +kernel

theorem test_slt_extremes : regAfter (.slt 3 1 2) 3 (-2147483648) 2147483647 = some 1 ∧
    regAfter (.slt 3 1 2) 3 2147483647 (-1) = some 0 ∧ regAfter (.slt 3 1 2) 3 0 0 = some 0 := by decide +kernel

theorem test_slt_alias : regAfter (.slt 2 1 2) 2 5 7 = some 1 ∧ regAfter (.slt 3 1 2) 3 (-1) 1 = some 1 := by decide +kernel

theorem test_lw_set_and_unset :
    (after (exec (.lw 3 1 1) (machine 0 [(1, 10)] [(11, 7)] []))).map (fun t => (regInt t 3, t.mem)) = some (7, [(11, 7)]) ∧
    (after (exec (.lw 3 1 1) (machine 0 [(1, 10), (3, 5)] [] []))).map (fun t => (regInt t 3, t.mem)) = some (0, []) := by
  decide +kernel

theorem test_lw_wraps_and_alias :
    (after (exec (.lw 2 1 (-1)) (machine 0 [(1, wrap32 (-2147483648))] [(2147483647, 6)] []))).map (fun t => regInt t 2) = some 6 ∧
    (after (exec (.lw 1 1 0) (machine 0 [(1, 10)] [(10, 44)] []))).map (fun t => regInt t 1) = some 44 := by decide +kernel

theorem test_sw_sets : memAfter (.sw 3 1 1) 10 9 [] = some [(11, 9)] ∧ memAfter (.sw 3 1 1) 10 0 [] = some [(11, 0)] ∧
    memAfter (.sw 1 1 0) 10 0 [(10, 5)] = some [(10, 10)] := by decide +kernel

theorem test_sw_signed_order : memAfter (.sw 3 1 (-11)) 10 1 [(0, 3), (5, 1)] = some [(-1, 1), (0, 3), (5, 1)] ∧
    memAfter (.sw 3 1 1) 2147483647 1 [] = some [(-2147483648, 1)] := by decide +kernel

theorem test_bne : pcAfter (.bne 1 2 4) 1 2 = some 15 ∧ pcAfter (.bne 1 2 4) 2 2 = some 11 ∧
    pcAfter (.bne 1 2 (-1)) 1 2 = some 10 ∧ pcAfter (.bne 1 2 (-12)) 1 2 = some (-1) := by decide +kernel

theorem test_j : pcAfter (.j 3) 0 0 = some 3 ∧ pcAfter (.j (-1)) 0 0 = some (-1) := by decide +kernel

theorem test_jal : (after (exec (.jal 3) (machine 10 [(7, 99)] [] []))).map (fun t => (t.pc, regInt t 7)) = some (3, 11) := by
  decide +kernel

theorem test_cache : (after (exec (.cache 1) (machine 0 [] [] []))).map (fun t => (t.cacheEnabled, t.pc)) = some (true, 1) ∧
    (after (exec (.cache 0) (setCacheEnabled (machine 3 [] [] []) true))).map (fun t => (t.cacheEnabled, t.pc)) = some (false, 4) := by
  decide +kernel

theorem test_cache_other : (after (exec (.cache 2) (setCacheEnabled (machine 1 [] [] []) true))).map (fun t => (t.cacheEnabled, t.pc)) = some (true, 2) ∧
    (instrEvent State.reset (bareEvent State.reset (.word 0)) (.cache (-1))).notice = some (.unknownCacheCode (-1)) := by
  decide +kernel

theorem test_halt : (after (step (machine 1 [] [] [.word 0, .record haltRecord]))).map (fun t => (t.pc, t.running, stopReason t)) =
    some (1, false, some .haltInstr) := by decide +kernel

theorem test_unknown_record_last_index : (after (step (one (.record fooRecord)))).map (fun t => (t.pc, t.running, stopReason t)) =
    some (1, true, some .pcPastEnd) := by decide +kernel

theorem test_unknown_words : after (step (one (.word 0x00FFFFFFFFFFFFFF))) = some (setPc (one (.word 0x00FFFFFFFFFFFFFF)) 1) ∧
    after (step (one (.word 0x0C00000000000000))) = some (setPc (one (.word 0x0C00000000000000)) 1) ∧
    after (step (one (.word 0x1F00000000000000))) = some (setPc (one (.word 0x1F00000000000000)) 1) ∧
    after (step (one (.word 0x2000000000000000))) = some (setPc (one (.word 0x2000000000000000)) 1) ∧
    after (step (one (.word 0x4000000000000000))) = some (setPc (one (.word 0x4000000000000000)) 1) ∧
    after (step (one (.word 0x8000000000000000))) = some (setPc (one (.word 0x8000000000000000)) 1) := by decide +kernel

theorem test_invalid_is_precise :
    after (step (one (.record badAdd))) =
      some { one (.record badAdd) with fatal := some (.operand 1 ['R', '3', '2'] .registerRange) } ∧
    (after (step (one (.record badAdd)))).bind stopReason = some (.fatal (.operand 1 ['R', '3', '2'] .registerRange)) := by
  decide +kernel

theorem test_reset_stops_at_once : stopOf (step State.reset) = some .pcPastEnd := by decide +kernel

theorem test_host_reading : decodeTableWord 64 0x0118440000000000 = some (.add 3 1 2) ∧ decodeTableWord 8 0 = some .unknown00 ∧
    after (step (State.reset.withFetchWord 64 0x032000000000000A)) =
      after (exec (.addi 4 0 10) (State.reset.withFetchWord 64 0x032000000000000A)) := by decide +kernel

theorem test_trace_of_untaken_bne : traceOf (machine 0 [] [] [.word 0x0708800000000005]) =
    some { pc := 0, slot := .word 0x0708800000000005, target := some 6, taken := some false, mode := none, notice := none, addr := none } := by
  decide +kernel

theorem test_snapshot_order : snapshotOf (Memory.load [(5, 1), (-1, 2), (0, 3)]) = [(-1, 2), (0, 3), (5, 1)] := by decide +kernel

/-- Outside NoOverflow the source's integers keep growing where this hardware wraps (00_scope.md R12). -/
theorem test_source_does_not_wrap :
    (match sourceStep (sourceOf (machine 0 [(1, 2147483647), (2, 1)] [] [.word 0x0118440000000000])) with
      | .ok t => some (t.regs.get 3)
      | .error _ => none) = some 2147483648 ∧
    sourceDecode (.record ⟨['J'], [['2', '1', '4', '7', '4', '8', '3', '6', '4', '8']]⟩) = .instr (.j 2147483648) := by
  decide +kernel

/-- The codes of R200: none, UnknownOpcode, UnknownCacheCode, InvalidOperand, and the status after each kind of stop. -/
theorem test_codes : (traceOf (one (.record haltRecord))).map TraceEvent.code = some 0 ∧
    (traceOf (one (.record fooRecord))).map TraceEvent.code = some 2 ∧
    (traceOf (one (.word 0x0A00000000000007))).map TraceEvent.code = some 3 ∧
    (traceOf (one (.record badAdd))).map TraceEvent.code = some 4 ∧
    statusCode (one (.word 0)) = 0 ∧ statusCode State.reset = 0 ∧
    statusCode (raiseInvalidOperand .arity (one (.word 0))) = 4 := by decide +kernel

/-- After a fatal stop the state stays readable on the status interface, and there is no final report (R188, D26). -/
theorem test_frozen_after_fatal : finalReport (raiseInvalidOperand .arity (machine 3 [] [(5, 0)] [])) = none ∧
    (statusReport (raiseInvalidOperand .arity (machine 3 [] [(5, 0)] []))).pc = 3 ∧
    ((statusReport (raiseInvalidOperand .arity (machine 3 [] [(5, 0)] []))).frozen).map (fun r => r.snapshot) = some [(5, 0)] := by
  decide +kernel

/-! ## Witnesses of the statements' hypotheses -/

theorem witness_ResetValues : Memory.lookup [(5, 0)] 6 = none := by decide

theorem witness_LaunchLoadsLastPair : ([] : List Slot).length ≤ Config.progLenMax ∧
    ∀ p ∈ [((2147483647 : Int), (-2147483648 : Int)), (-2147483648, 2147483647), (2147483647, 3)],
      inWordRange p.1 ∧ inWordRange p.2 := by decide

theorem witness_LaunchRefuses_value : ∃ p ∈ [((0 : Int), (2147483648 : Int))], ¬ inWordRange p.1 ∨ ¬ inWordRange p.2 := by decide

theorem witness_LaunchRefuses_address : ∃ p ∈ [((-2147483649 : Int), (0 : Int))], ¬ inWordRange p.1 ∨ ¬ inWordRange p.2 := by
  decide

theorem witness_LaunchRefuses_repeat : (∀ p ∈ [((0 : Int), (1 : Int)), (0, 1)], inWordRange p.1 ∧ inWordRange p.2) ∧
    ¬ ([((0 : Int), (1 : Int)), (0, 1)].map fun p => p.1).Nodup := by decide

theorem witness_LaunchRefuses_length_image : sourceMemory (some (.ordered [(5, 0)])) = .ok [(5, 0)] := rfl

theorem witness_LaunchRefuses_length : Config.progLenMax < (List.replicate 2147483648 (Slot.word 0)).length := by
  rw [List.length_replicate]; decide

theorem witness_MissingSource_program : (List.replicate 2147483647 (Slot.word 0)).length ≤ Config.progLenMax := by
  rw [List.length_replicate]; decide

theorem witness_LaunchResult_both_missing : sourceMemory none = .ok [] ∧
    ((none : Option (List Slot)).getD []).length ≤ Config.progLenMax := ⟨rfl, by decide⟩

theorem witness_LaunchResult_loaded : sourceMemory (some (.ordered [(5, 0)])) = .ok [(5, 0)] ∧
    ((some [Slot.word 0]).getD []).length ≤ Config.progLenMax := ⟨rfl, by decide⟩

theorem witness_MissingSource_image : imageMemory (.ordered [(5, 0)]) = .ok [(5, 0)] := rfl

theorem witness_DecodeOfEncode : wellFormed (.addi 31 0 (-2147483648)) = true ∧ wellFormed (.unknown80FF 0xFF) = true ∧
    wellFormed (.unknown0C0F 0x0C) = true := by decide

theorem witness_EncodeOfDecode : (wordDecode 0x0B00000000000000 = .instr .halt ∧ isCore .halt = true) ∧
    wordDecode 0x00FFFFFFFFFFFFFF = .instr .unknown00 := by decide

theorem witness_OpcodeNumbers : (opcodeOfNumber (opField 0x0B00000000000001) = some .halt ∧
      (0x0B00000000000001 : InstrWord).toNat / 2 ^ 56 = 0x0B) ∧
    (0x00FFFFFFFFFFFFFF : InstrWord).toNat / 2 ^ 56 = 0 ∧
    0x0C ≤ (0x0C00000000000000 : InstrWord).toNat / 2 ^ 56 := by decide

theorem witness_MustBeZero_violated : opcodeOfNumber (opField 0x0B00000000000001) = some .halt ∧
    mbzViolated .halt 0x0B00000000000001 := ⟨by decide, .inr (.inr (.inr (.inr (by decide))))⟩

theorem witness_MustBeZero_invalid : wordDecode 0x0118440100000000 = .invalid .mbz := by decide

theorem witness_MustBeZero_step : canStep (one (.word 0x0118440100000000)) ∧
    slotAtPc (one (.word 0x0118440100000000)) = some (.word 0x0118440100000000) ∧
    opcodeOfNumber (opField 0x0118440100000000) = some .add ∧ mbzViolated .add 0x0118440100000000 :=
  ⟨by decide +kernel, by decide +kernel, by decide, .inl (by decide)⟩

theorem witness_SpellingDecodes : spell (.lw 31 30 (-2147483648)) =
    some ⟨['L', 'W'], [['R', '3', '1'], ['-', '2', '1', '4', '7', '4', '8', '3', '6', '4', '8', '(', 'R', '3', '0', ')']]⟩ := by decide

theorem witness_RecordOrder_unknown : opcodeOfTag fooRecord.opcode = none := by decide

theorem witness_RecordOrder_arity : opcodeOfTag ['J'] = some .j ∧ ([] : List Token).length ≠ (operandKinds .j).length := by decide

theorem witness_RecordOrder_fault : opcodeOfTag badAdd.opcode = some .add ∧
    badAdd.operands.length = (operandKinds .add).length ∧ badAdd.operands[0]? = some ['R', '3', '2'] ∧
    (operandKinds .add)[0]? = some .register ∧ tokenFault .register ['R', '3', '2'] = some .registerRange ∧
    ∀ (j : Nat) (u : Token) (kd : OperandKind), j < 0 → badAdd.operands[j]? = some u → (operandKinds .add)[j]? = some kd →
      tokenFault kd u = none :=
  ⟨by decide, by decide, by decide, by decide, by decide, fun _ _ _ h => absurd h (Nat.not_lt_zero _)⟩

theorem witness_RecordOrder_good : opcodeOfTag ['J'] = some .j ∧ [['2']].length = (operandKinds .j).length ∧
    ∀ (j : Nat) (u : Token) (kd : OperandKind), ([['2']] : List Token)[j]? = some u → (operandKinds .j)[j]? = some kd →
      tokenFault kd u = none := by
  refine ⟨by decide, by decide, fun j u kd hu hk => ?_⟩
  match j, hu, hk with
  | 0, hu, hk => cases hu; cases hk; decide
  | _ + 1, hu, _ => cases hu

theorem witness_OpcodeNames : ['A', 'D', 'D', 'X'].map upperChar ∉ opcodeNames.map (fun p => p.1) := by decide

theorem witness_StepRuns_instr : canStep (one (.record haltRecord)) ∧ slotAtPc (one (.record haltRecord)) = some (.record haltRecord) ∧
    slotDecode (.record haltRecord) = .instr .halt := by decide +kernel

theorem witness_StepRuns_unknown : canStep (one (.record fooRecord)) ∧ slotAtPc (one (.record fooRecord)) = some (.record fooRecord) ∧
    slotDecode (.record fooRecord) = .unknownTag ['F', 'O', 'O'] := by decide +kernel

theorem witness_StepRuns_invalid : canStep (one (.record badAdd)) ∧ slotAtPc (one (.record badAdd)) = some (.record badAdd) ∧
    slotDecode (.record badAdd) = .invalid (.operand 1 ['R', '3', '2'] .registerRange) := by decide +kernel

theorem witness_StepExists_not : ¬ canStep (machine 1 [] [] [.word 0]) ∧ ¬ canStep (machine (-1) [] [] [.word 0]) ∧
    canStep (machine 0 [] [] [.word 0]) := by decide +kernel

/-- One state for each stop reason, at the boundary of its range. -/
theorem witness_FourStopReasons : stopOf (step (setRunning (one (.word 0)) false)) = some .haltInstr ∧
    stopOf (step (machine 1 [] [] [.word 0])) = some .pcPastEnd ∧
    stopOf (step (machine (-1) [] [] [.word 0])) = some .pcBelowZero ∧
    stopOf (step (raiseInvalidOperand .arity (one (.word 0)))) = some (.fatal .arity) := by decide +kernel

theorem witness_FourStopReasons_run : ∃ n t, runSteps n (one (.word 0)) = .next t ∧ ¬ canStep t :=
  ⟨1, setPc (one (.word 0)) 1, rfl, by decide +kernel⟩

theorem witness_InvalidOperand : canStep (one (.word 0x0B00000000000001)) ∧ atPc (one (.word 0x0B00000000000001)) (.invalid .mbz) :=
  ⟨by decide +kernel, .word 0x0B00000000000001, by decide +kernel, by decide⟩

theorem witness_JalResult : -2147483648 ≤ (machine 2147483646 [] [] []).pc + 1 ∧ (machine 2147483646 [] [] []).pc + 1 ≤ 2147483647 ∧
    (machine (-2147483649) [] [] []).pc + 1 = -2147483648 := by decide +kernel

theorem witness_HaltResult : (one (.word 0x0B00000000000000)).fatal = none := by decide +kernel

theorem witness_encodedAs : tokensGive (.cache 1) [['1']] ∧ tokensGive .halt [] := ⟨⟨_, rfl, rfl⟩, rfl⟩

theorem witness_Unknown_row : isCore .unknown00 = false ∧ isCore (.unknown0C0F 0x0C) = false ∧ isCore (.unknown101F 0x10) = false ∧
    isCore (.unknown203F 0x20) = false ∧ isCore (.unknown407F 0x40) = false ∧ isCore (.unknown80FF 0x80) = false := by decide

theorem witness_Unknown_word : canStep (one (.word 0x0C00000000000000)) ∧
    slotAtPc (one (.word 0x0C00000000000000)) = some (.word 0x0C00000000000000) ∧
    opcodeOfNumber (opField 0x0C00000000000000) = none := by decide +kernel

theorem witness_RegistersReadAndWritten : exec (.jal 0) State.reset = .next (setPc (writeReg State.reset 7 1) 0) ∧
    writesReg (.jal 0) ≠ some 6 ∧ (6 : RegIdx) ∉ readsRegs (.jal 0) ∧ (7 : RegIdx) ∉ readsRegs (.jal 0) ∧
    writesReg (.jal 0) = some 7 := ⟨rfl, by decide, by decide, by decide, rfl⟩

theorem witness_PcAfterEveryStep : exec .halt State.reset = .next (setRunning State.reset false) ∧
    step (one (.record badAdd)) = .next (raiseInvalidOperand (.operand 1 ['R', '3', '2'] .registerRange) (one (.record badAdd))) ∧
    step (one (.record fooRecord)) = .next (setPc (one (.record fooRecord)) 1) := ⟨rfl, rfl, rfl⟩

theorem witness_TwoPhase : InRange (machine 19 [] [] (List.replicate 20 (.word 0))) ∧
    canStep (machine 19 [] [] (List.replicate 20 (.word 0))) := by decide +kernel

theorem witness_Flags_halt : ∃ t, step (one (.record haltRecord)) = .next t ∧ t.running ≠ (one (.record haltRecord)).running :=
  ⟨_, rfl, by decide +kernel⟩

theorem witness_Flags_cache_on : ∃ t, step (one (.word 0x0A00000000000001)) = .next t ∧
    t.cacheEnabled ≠ (one (.word 0x0A00000000000001)).cacheEnabled := ⟨_, rfl, by decide +kernel⟩

theorem witness_Flags_cache_off : ∃ t, step (setCacheEnabled (one (.word 0x0A00000000000000)) true) = .next t ∧
    t.cacheEnabled ≠ (setCacheEnabled (one (.word 0x0A00000000000000)) true).cacheEnabled := ⟨_, rfl, by decide +kernel⟩

theorem witness_CacheNeverMatters : exec (.cache 1) State.reset = .next (advance (setCacheEnabled State.reset true)) := rfl

theorem witness_ProgramNeverWritten : ∃ t, step (one (.word 0x0510000000000000)) = .next t := ⟨_, rfl⟩

theorem witness_ProgramNeverRead : ∃ t, exec (.sw 2 0 0) State.reset = .next t := ⟨_, rfl⟩

theorem witness_MemoryChangesOnlyByStores : ∃ t, step (one (.word 0x0510000000000000)) = .next t ∧
    Memory.lookup t.mem 0 ≠ Memory.lookup (one (.word 0x0510000000000000)).mem 0 ∧ (Memory.lookup t.mem 0).isSome = true :=
  ⟨_, rfl, by decide +kernel, by decide +kernel⟩

theorem witness_MemoryReadAndWrite : Memory.lookup [(5, 0)] 5 = some 0 ∧ Memory.lookup [(5, 0)] 6 = none ∧ (6 : Word) ≠ 5 := by decide

theorem witness_CanonicalMemories : Memory.wf [(-2147483648, 0), (2147483647, 1)] = true ∧
    ∀ a, Memory.lookup [((-2147483648 : Word), (0 : Word)), (2147483647, 1)] a =
      Memory.lookup [(-2147483648, 0), (2147483647, 1)] a := ⟨by decide, fun _ => rfl⟩

theorem witness_FinalReport_stopped : ¬ canStep (machine 1 [] [(5, 0)] [.word 0]) ∧ (machine 1 [] [(5, 0)] [.word 0]).fatal = none ∧
    Memory.wf (machine 1 [] [(5, 0)] [.word 0]).mem = true := by decide +kernel

theorem witness_FinalReport_others : canStep (one (.word 0)) ∧ (raiseInvalidOperand .mbz (one (.word 0))).fatal ≠ none := by
  decide +kernel

theorem witness_StatusInterface : canStep (one (.word 0)) ∧ ¬ canStep (machine 1 [] [(5, 0)] [.word 0]) ∧
    ¬ canStep (raiseInvalidOperand .mbz (machine 0 [] [(5, 0)] [.word 0])) ∧
    Memory.wf (raiseInvalidOperand .mbz (machine 0 [] [(5, 0)] [.word 0])).mem = true := by decide +kernel

theorem witness_AddThenSub : (3 : RegIdx) ≠ 1 ∧ (3 : RegIdx) ≠ 2 := by decide

theorem witness_InstructionsWithoutEffect : ((-1 : Word).toInt ≠ 0 ∧ (-1 : Word).toInt ≠ 1) ∧
    ((2 : Word).toInt ≠ 0 ∧ (2 : Word).toInt ≠ 1) ∧ (machine (-2147483649) [] [] []).pc = (-2147483648 : Word).toInt - 1 := by
  decide +kernel

/-- The sum, the difference and the address may be the last word in range. -/
theorem witness_ExactUnderNoOverflow : noOverflow (.add 3 1 2) (machine 0 [(1, 2147483646), (2, 1)] [] []) ∧
    noOverflow (.sub 3 1 2) (machine 0 [(1, -2147483647), (2, 1)] [] []) ∧
    noOverflow (.addi 3 1 1) (machine 0 [(1, 2147483646)] [] []) ∧
    noOverflow (.lw 3 1 (-1)) (machine 0 [(1, -2147483647)] [] []) ∧
    noOverflow (.sw 3 1 1) (machine 0 [(1, 2147483646)] [] []) ∧ noOverflow .halt State.reset :=
  ⟨by unfold noOverflow; decide +kernel, by unfold noOverflow; decide +kernel, by unfold noOverflow; decide +kernel,
    by unfold noOverflow; decide +kernel, by unfold noOverflow; decide +kernel, trivial⟩

theorem witness_ExactUnderNoOverflow_next : ∃ t, exec (.add 3 1 2) (machine 0 [(1, 2147483646), (2, 1)] [] []) = .next t := ⟨_, rfl⟩

theorem witness_Targets_jump : canStep (one (.word 0)) ∧ (-1 : Word).toInt < 0 ∧
    progLen (one (.word 0)) ≤ (1 : Word).toInt ∧ ¬ (1 : Word).toInt < 0 := by decide +kernel

theorem witness_Targets_branch : canStep (machine 0 [(1, 1)] [] [.word 0]) ∧
    regInt (machine 0 [(1, 1)] [] [.word 0]) 1 ≠ regInt (machine 0 [(1, 1)] [] [.word 0]) 2 ∧
    (machine 0 [(1, 1)] [] [.word 0]).pc + 1 + (-2 : Word).toInt < 0 ∧
    progLen (machine 0 [(1, 1)] [] [.word 0]) ≤ (machine 0 [(1, 1)] [] [.word 0]).pc + 1 + (0 : Word).toInt := by decide +kernel

theorem witness_LaunchEstablishesInvariant : launch (some [.word 0]) (some (.ordered [(5, 0)])) =
    .ok ⟨bootState [.word 0] [(5, 0)], []⟩ := rfl

/-- A running machine, a fatal stop at its culprit and a halted machine at its HALT all meet the invariant. -/
theorem witness_RunInv : RunInv (one (.word 0x0B00000000000000)) ∧
    RunInv (raiseInvalidOperand .mbz (one (.word 0x0B00000000000001))) ∧
    RunInv (setRunning (one (.word 0x0B00000000000000)) false) := by
  refine ⟨⟨by decide +kernel, fun i h => ?_, fun h => ?_⟩, ⟨by decide +kernel, fun i h => ?_, fun h => ?_⟩,
    ⟨by decide +kernel, fun i h => ?_, fun _ => ⟨rfl, .word 0x0B00000000000000, rfl, by decide⟩⟩⟩
  · cases h
  · cases h
  · cases h; exact ⟨rfl, .word 0x0B00000000000001, rfl, by decide⟩
  · cases h
  · cases h

theorem witness_StepKeepsInvariant : RunInv (one (.word 0x0B00000000000000)) ∧
    ∃ t, step (one (.word 0x0B00000000000000)) = .next t := ⟨witness_RunInv.1, _, rfl⟩

theorem witness_EveryRunKeepsInvariant : ∃ l t, launch (some [.word 0]) none = .ok l ∧ runSteps 1 l.state = .next t :=
  ⟨⟨bootState [.word 0] [], [.memory]⟩, _, rfl, rfl⟩

/-- A program of records and the program of the corresponding words. -/
theorem witness_RunsAlike : runsAlike (machine 0 [] [] [.record haltRecord, .record fooRecord])
    (machine 0 [] [] [.word 0x0B00000000000000, .word 0]) :=
  ⟨rfl, rfl, rfl, rfl, rfl, rfl, .cons (.inl rfl) (.cons rfl .nil)⟩

theorem witness_StepIsUnbounded : (machine 0 [(1, 2147483646), (2, 1)] [] [.word 0x0118440000000000]).program.length ≤ Config.progLenMax ∧
    (∀ e, slotAtPc (machine 0 [(1, 2147483646), (2, 1)] [] [.word 0x0118440000000000]) = some e → literalsInRange e) ∧
    ∀ i, canStep (machine 0 [(1, 2147483646), (2, 1)] [] [.word 0x0118440000000000]) →
      atPc (machine 0 [(1, 2147483646), (2, 1)] [] [.word 0x0118440000000000]) (.instr i) →
      noOverflow i (machine 0 [(1, 2147483646), (2, 1)] [] [.word 0x0118440000000000]) := by
  refine ⟨by decide +kernel, fun e he => ?_, fun i _ h => ?_⟩
  · cases he; exact trivial
  · obtain ⟨e, he, hd⟩ := h
    cases he
    rw [show slotDecode (.word 0x0118440000000000) = .instr (.add 3 1 2) by decide] at hd
    cases hd
    unfold noOverflow
    decide +kernel

/-- ADDI R1, R0 with the greatest literal, alone in its program. -/
def lastLiteral : Record :=
  ⟨['A', 'D', 'D', 'I'], [['R', '1'], ['R', '0'], ['2', '1', '4', '7', '4', '8', '3', '6', '4', '7']]⟩

theorem lastLiteral_inRange : literalsInRange (.record lastLiteral) := by
  intro o ho p hp
  rw [show opcodeOfTag lastLiteral.opcode = some .addi by decide] at ho
  cases ho
  simp only [operandKinds, lastLiteral, List.zip_cons_cons, List.zip_nil_right, List.mem_cons, List.not_mem_nil, or_false] at hp
  rcases hp with rfl | rfl | rfl
  · exact trivial
  · exact trivial
  · intro v hv
    rw [show literalValue ['2', '1', '4', '7', '4', '8', '3', '6', '4', '7'] = some 2147483647 by decide] at hv
    cases hv
    decide

theorem witness_RunIsUnbounded : launch (some [.record lastLiteral]) (some (.ordered [(2147483647, -2147483648)])) =
      .ok ⟨bootState [.record lastLiteral] [(2147483647, -2147483648)], []⟩ ∧
    runNoOverflow (some [.record lastLiteral]) (some (.ordered [(2147483647, -2147483648)])) := by
  refine ⟨rfl, fun im h => ?_, fun e he => ?_, fun l hl n t i hr hc ha => ?_⟩
  · cases h; decide
  · cases List.mem_singleton.1 he; exact lastLiteral_inRange
  · cases hl
    match n, hr with
    | 0, hr =>
      cases hr
      obtain ⟨e, he, hd⟩ := ha
      cases he
      rw [show slotDecode (.record lastLiteral) = .instr (.addi 1 0 2147483647) by decide] at hd
      cases hd
      unfold noOverflow
      decide +kernel
    | 1, hr => cases hr; exact absurd hc (by decide +kernel)
    | n + 2, hr => cases hr

theorem witness_ConditionCodes_raised : (∃ t, step (one (.record fooRecord)) = .next t) ∧
    (∃ t, step (one (.record badAdd)) = .next t ∧ t.fatal ≠ none) ∧ (∃ t, step (one (.word 0x0A00000000000007)) = .next t) :=
  ⟨⟨_, rfl⟩, ⟨_, rfl, by decide +kernel⟩, ⟨_, rfl⟩⟩

theorem witness_ConditionCodes_none : (∃ t, step (one (.word 0x0A00000000000002)) = .next t) ∧
    slotAtPc (one (.word 0x0A00000000000002)) = some (.word 0x0A00000000000002) ∧
    launch none (some (.unordered [])) = .ok ⟨bootState [] [], [.program]⟩ := ⟨⟨_, rfl⟩, by decide +kernel, rfl⟩

/-- One entry of each case of the trace table, at the pc of a state in which a step exists. -/
theorem witness_OneTraceEvent_cases : ∀ p ∈ [((0x0708800000000005 : InstrWord), Instr.bne 1 2 5), (0x0800000000000002, .j 2),
      (0x0900000000000004, .jal 4), (0x04FF8000FFFFFFFC, .lw 31 30 (-4)), (0x0511400000000004, .sw 2 5 4),
      (0x0A00000000000000, .cache 0), (0x0A00000000000002, .cache 2), (0x0A00000000000007, .cache 7),
      (0x0118440000000000, .add 3 1 2), (0, .unknown00)],
    canStep (one (.word p.1)) ∧ slotAtPc (one (.word p.1)) = some (.word p.1) ∧ slotDecode (.word p.1) = .instr p.2 := by
  decide +kernel

theorem witness_OneTraceEvent_unknown : canStep (one (.record fooRecord)) ∧
    slotAtPc (one (.record fooRecord)) = some (.record fooRecord) ∧
    slotDecode (.record fooRecord) = .unknownTag ['F', 'O', 'O'] := witness_StepRuns_unknown

theorem witness_OneTraceEvent : ¬ canStep State.reset ∧ canStep (one (.record badAdd)) ∧
    slotAtPc (one (.record badAdd)) = some (.record badAdd) := by decide +kernel

end Sys2Proof.Machine.Tests
end

/-! PROOFS. 10_state.md: the reset values (R36), which registers an instruction reads and writes (R40), how a step leaves the pc
(R23), and which steps write a flag (R27). -/

namespace Sys2Proof.Machine

/-! ## Two writes of a register, and the state updates after one -/

theorem writeReg_writeReg_same (s : State) (r : RegIdx) (u v : Word) : writeReg (writeReg s r u) r v = writeReg s r v := by
  simp [writeReg]

theorem writeReg_comm {s : State} {q r : RegIdx} {u v : Word} (h : q ≠ r) :
    writeReg (writeReg s q v) r u = writeReg (writeReg s r u) q v := by
  simp only [writeReg, State.mk.injEq, and_true]
  exact Vector.set_comm v u (Fin.val_ne_of_ne h)

theorem writeReg_writeReg (s : State) (q r : RegIdx) (u v : Word) : writeReg (writeReg s q v) r u =
    if r = q then writeReg s r u else writeReg (writeReg s r u) q v := by
  split
  case isTrue h => rw [h, writeReg_writeReg_same]
  case isFalse h => exact writeReg_comm (Ne.symm h)

theorem advance_writeReg (s : State) (q : RegIdx) (v : Word) : advance (writeReg s q v) = writeReg (advance s) q v := rfl

theorem finishReg_writeReg (s : State) (q r : RegIdx) (u v : Word) : finishReg (writeReg s q v) r u =
    if r = q then finishReg s r u else writeReg (finishReg s r u) q v := by
  rw [finishReg, writeReg_writeReg]
  split <;> rfl

theorem storeWord_writeReg (s : State) (q : RegIdx) (a u v : Word) :
    storeWord (writeReg s q v) a u = writeReg (storeWord s a u) q v := rfl

theorem applyCacheDirective_writeReg (s : State) (q : RegIdx) (v : Word) (d : CacheDirective) :
    applyCacheDirective (writeReg s q v) d = writeReg (applyCacheDirective s d) q v := by
  cases d <;> rfl

/-- BNE assigns the pc and nothing else (R160). -/
theorem effect_bne (rs rt : RegIdx) (offset : Word) (s : State) : effect (.bne rs rt offset) s =
    setPc s (if registersDiffer s rs rt then branchTarget s offset else s.pc + 1) := by
  simp only [effect]
  split <;> rfl

/-! ## R40: the registers an instruction writes and reads -/

theorem readReg_effect_of_not_written {i : Instr} {q : RegIdx} (s : State) (h : writesReg i ≠ some q) :
    readReg (effect i s) q = readReg s q := by
  cases i with
  | add rd _ _ | sub rd _ _ | slt rd _ _ | addi rd _ _ | lw rd _ _ =>
    have hq : q ≠ rd := fun e => h (congrArg some e.symm)
    simp [readReg_finishReg, hq]
  | jal target =>
    have hq : q ≠ Config.link := fun e => h (congrArg some e.symm)
    simp [readReg_writeReg, hq]
  | bne rs rt offset => rw [effect_bne]; rfl
  | cache code => simp
  | sw | j | halt | unknown00 | unknown0C0F | unknown101F | unknown203F | unknown407F | unknown80FF => rfl

/-- R40, the registers read: the registers of `readsRegs` hold in the changed state what they held before, and the arm of `i` looks
at no other, so the two states differ by the other register alone. -/
theorem effect_writeReg_of_not_read {i : Instr} {q : RegIdx} (s : State) (v : Word) (h : q ∉ readsRegs i) :
    effect i (writeReg s q v) = if writesReg i = some q then effect i s else writeReg (effect i s) q v := by
  have hread : ∀ p ∈ readsRegs i, readReg (writeReg s q v) p = readReg s p := fun p hp =>
    readReg_writeReg_other (ne_of_mem_of_not_mem hp h)
  cases i with
  | add | sub | slt | addi =>
    simp only [readsRegs, List.forall_mem_cons] at hread
    simp [regInt, hread, writesReg, finishReg_writeReg]
  | lw rt rs offset =>
    simp only [readsRegs, List.forall_mem_cons] at hread
    simp [regInt, hread, writesReg, finishReg_writeReg, loadWord, effectiveAddress]
  | sw rt rs offset =>
    simp only [readsRegs, List.forall_mem_cons] at hread
    simp [regInt, hread, writesReg, storeWord_writeReg, advance_writeReg, effectiveAddress]
  | bne rs rt offset =>
    have hdiffer : registersDiffer (writeReg s q v) rs rt = registersDiffer s rs rt := by
      unfold registersDiffer regInt
      rw [hread rs (by simp [readsRegs]), hread rt (by simp [readsRegs])]
    rw [effect_bne, effect_bne, hdiffer]
    rfl
  | jal target =>
    rw [effect, writeReg_writeReg]
    simp only [writesReg, Option.some.injEq]
    split <;> rfl
  | cache code => simp [writesReg, applyCacheDirective_writeReg, advance_writeReg]
  | j | halt | unknown00 | unknown0C0F | unknown101F | unknown203F | unknown407F | unknown80FF => rfl

/-- Settles O32: each instruction completes with `effect`, which writes and reads the registers of R40's table only. -/
theorem registersReadAndWritten : Obligations.RegistersReadAndWritten := by
  unfold Obligations.RegistersReadAndWritten
  simp only [exec_next_iff]
  constructor
  · rintro i s t q rfl hw
    exact congrArg BitVec.toInt (readReg_effect_of_not_written s hw)
  · rintro i s t q v rfl hr
    exact (effect_writeReg_of_not_read s v hr).symm

/-! ## The entry a step fetched -/

theorem slotAtPc_of_fetch {s : State} {e : Slot} (h : fetch s = .ok e) : slotAtPc s = some e := by
  obtain ⟨⟨-, -, hpc, -⟩, he⟩ := (fetch_ok_iff s e).1 h
  simp [slotAtPc, hpc, he]

theorem atPc_of_fetch {s : State} {e : Slot} {d : Decoded} (h : fetch s = .ok e) (hd : slotDecode e = d) : atPc s d :=
  ⟨e, slotAtPc_of_fetch h, hd⟩

/-- A step with a next state is the arm of the entry at the pc (R122). -/
theorem execDecoded_of_step_next {s t : State} {e : Slot} (h : step s = .next t) (he : slotAtPc s = some e) :
    execDecoded (slotDecode e) s = .next t := by
  obtain ⟨e', hf, -⟩ := step_next_cases h
  obtain rfl : e' = e := Option.some.inj ((slotAtPc_of_fetch hf).symm.trans he)
  rw [← step_of_fetch hf, h]

/-! ## R23: the pc after a step -/

theorem bne_pc (rs rt : RegIdx) (offset : Word) (s : State) : (effect (.bne rs rt offset) s).pc =
    if regInt s rs ≠ regInt s rt then s.pc + 1 + offset.toInt else s.pc + 1 := by
  rw [effect_bne, setPc_pc]
  simp [registersDiffer, branchTarget, literalInt]

/-- Settles O33: BNE by its condition, CACHE by what a directive leaves unchanged, every other arm by the pc it assigns; an unknown
tag and InvalidOperand by the arm of the entry at the pc. -/
theorem pcAfterEveryStep : Obligations.PcAfterEveryStep := by
  unfold Obligations.PcAfterEveryStep
  constructor
  · intro i s t h
    obtain rfl := (exec_next_iff i s t).1 h
    cases i with
    | bne rs rt offset => exact bne_pc rs rt offset s
    | cache code => simp
    | halt => exact Int.add_zero s.pc
    | add | sub | addi | slt | lw | sw | j | jal => rfl
    | unknown00 | unknown0C0F | unknown101F | unknown203F | unknown407F | unknown80FF => rfl
  · intro s t e h he
    have harm := execDecoded_of_step_next h he
    constructor
    · intro tag hd
      rw [hd] at harm
      cases harm
      rfl
    · intro info hd
      rw [hd] at harm
      cases harm
      rfl

/-! ## R27: the flags -/

theorem effect_running_of_ne_halt {i : Instr} (s : State) (h : i ≠ .halt) : (effect i s).running = s.running := by
  cases i with
  | halt => exact absurd rfl h
  | bne rs rt offset => rw [effect_bne]; rfl
  | cache code => simp
  | add | sub | addi | slt | lw | sw | j | jal => rfl
  | unknown00 | unknown0C0F | unknown101F | unknown203F | unknown407F | unknown80FF => rfl

theorem effect_cacheEnabled_of_ne_cache {i : Instr} (s : State) (h : ∀ code, i ≠ .cache code) :
    (effect i s).cacheEnabled = s.cacheEnabled := by
  cases i with
  | cache code => exact absurd rfl (h code)
  | bne rs rt offset => rw [effect_bne]; rfl
  | add | sub | addi | slt | lw | sw | j | jal | halt => rfl
  | unknown00 | unknown0C0F | unknown101F | unknown203F | unknown407F | unknown80FF => rfl

theorem cacheDirective_eq (code : Word) : cacheDirective code =
    if code = 0 then .disable else if code = 1 then .enable else if code = 2 then .flush else .unknownCode := by
  have hlit : ∀ c : Word, literalInt code = c.toInt ↔ code = c := fun c => BitVec.toInt_inj
  simp only [cacheDirective, ← hlit]
  rfl

/-- CACHE writes `cache_enabled` by code 0 and code 1, each with its own value (R170). -/
theorem effect_cache_cacheEnabled (code : Word) (s : State) : (effect (.cache code) s).cacheEnabled =
    if code = 0 then false else if code = 1 then true else s.cacheEnabled := by
  simp only [effect, advance_cacheEnabled, cacheDirective_eq]
  split_ifs <;> rfl

/-- A step that changes a flag is an instruction's: an unknown tag and InvalidOperand keep both. -/
theorem exists_instr_of_step_changes_flag {s t : State} (h : step s = .next t)
    (hne : t.running ≠ s.running ∨ t.cacheEnabled ≠ s.cacheEnabled) : ∃ i, atPc s (.instr i) ∧ t = effect i s := by
  obtain ⟨e, hf, ⟨i, hd, hx⟩ | ⟨tag, -, rfl⟩ | ⟨info, -, rfl⟩⟩ := step_next_cases h
  · exact ⟨i, atPc_of_fetch hf hd, (exec_next_iff i s t).1 hx⟩
  · simp at hne
  · simp at hne

/-- Settles O35: the step is an instruction's, that instruction is HALT or a CACHE, and of the CACHE codes 0 and 1 alone write. -/
theorem flagsWrittenByHaltAndCacheOnly : Obligations.FlagsWrittenByHaltAndCacheOnly := by
  unfold Obligations.FlagsWrittenByHaltAndCacheOnly
  intro s t h
  constructor
  · intro hr
    obtain ⟨i, hat, rfl⟩ := exists_instr_of_step_changes_flag h (.inl hr)
    obtain rfl : i = .halt := by_contra fun hi => hr (effect_running_of_ne_halt s hi)
    exact ⟨hat, rfl⟩
  · intro hc
    obtain ⟨i, hat, rfl⟩ := exists_instr_of_step_changes_flag h (.inr hc)
    obtain ⟨code, rfl⟩ : ∃ code, i = .cache code :=
      by_contra fun hi => hc (effect_cacheEnabled_of_ne_cache s fun code e => hi ⟨code, e⟩)
    rw [effect_cache_cacheEnabled] at hc ⊢
    split_ifs at hc ⊢ with h0 h1
    · exact .inl ⟨h0 ▸ hat, rfl⟩
    · exact .inr ⟨h1 ▸ hat, rfl⟩
    · exact absurd rfl hc

/-! ## R36: the state after reset -/

theorem regInt_bootState (program : List Slot) (mem0 : Memory) (q : RegIdx) : regInt (bootState program mem0) q = 0 := by
  simp [regInt, readReg, Vector.get_eq_getElem]

/-- Settles O1: each field of `bootState` by its law, the registers by what a read of them gives, the unset addresses
by `read_of_unset`. -/
theorem resetValues : Obligations.ResetValues := by
  unfold Obligations.ResetValues
  intro program mem0
  exact ⟨regInt_bootState program mem0, bootState_pc .., bootState_running .., bootState_cacheEnabled .., bootState_fatal ..,
    bootState_mem .., bootState_program .., rfl, fun _ ha => read_of_unset ha, rfl⟩

end Sys2Proof.Machine

/-! PROOFS. 20_memory.md: reads and writes (R52, R53), what a step does to the memory (R54), the program store (R66), and
`cache_enabled`, which no step depends on (R67). -/

namespace Sys2Proof.Machine

/-! ## R67: `cache_enabled` is read by nothing -/

/-- The second state is the first but for `cache_enabled`. -/
def AgreeButCache (s t : State) : Prop := ∃ b, t = setCacheEnabled s b

/-- Both go on, to states that agree but for `cache_enabled`, or both stop for the same reason. -/
def OutcomesAgreeButCache (x y : Host.Outcome State Fault Refusal) : Prop :=
  (∃ s t, x = .next s ∧ y = .next t ∧ AgreeButCache s t) ∨ ∃ f, x = .fault f ∧ y = .fault f

theorem outcomesAgreeButCache_next {s t : State} (h : AgreeButCache s t) : OutcomesAgreeButCache (.next s) (.next t) :=
  .inl ⟨s, t, rfl, rfl, h⟩

/-- A directive leaves the state as it was but for `cache_enabled` (R170). -/
theorem exists_applyCacheDirective_eq (s : State) (d : CacheDirective) :
    ∃ b, applyCacheDirective s d = setCacheEnabled s b := by
  cases d with
  | disable => exact ⟨false, rfl⟩
  | enable => exact ⟨true, rfl⟩
  | flush | unknownCode => exact ⟨s.cacheEnabled, rfl⟩

/-- A CACHE only advances the pc, but for `cache_enabled`. -/
theorem advance_agreeButCache_effect_cache (code : Word) (s : State) :
    AgreeButCache (advance s) (effect (.cache code) s) := by
  obtain ⟨b, hb⟩ := exists_applyCacheDirective_eq s (cacheDirective code)
  exact ⟨b, congrArg advance hb⟩

/-- No arm reads `cache_enabled`: one that is not CACHE's hands it on as it stands, and CACHE's leaves nothing of it but the new
value. -/
theorem effect_agreeButCache {s t : State} (i : Instr) (h : AgreeButCache s t) :
    AgreeButCache (effect i s) (effect i t) := by
  obtain ⟨b, rfl⟩ := h
  cases i with
  | cache code =>
    obtain ⟨c, hc⟩ := exists_applyCacheDirective_eq s (cacheDirective code)
    obtain ⟨d, hd⟩ := exists_applyCacheDirective_eq (setCacheEnabled s b) (cacheDirective code)
    exact ⟨d, by rw [effect, effect, hc, hd]; rfl⟩
  | bne rs rt offset => exact ⟨b, by rw [effect_bne, effect_bne]; rfl⟩
  | add | sub | addi | slt | lw | sw | j | jal | halt => exact ⟨b, rfl⟩
  | unknown00 | unknown0C0F | unknown101F | unknown203F | unknown407F | unknown80FF => exact ⟨b, rfl⟩

theorem execDecoded_agreeButCache {s t : State} (d : Decoded) (h : AgreeButCache s t) :
    OutcomesAgreeButCache (execDecoded d s) (execDecoded d t) := by
  cases d with
  | instr i =>
    simp only [execDecoded, exec_eq]
    exact outcomesAgreeButCache_next (effect_agreeButCache i h)
  | unknownTag tag =>
    obtain ⟨b, rfl⟩ := h
    exact outcomesAgreeButCache_next ⟨b, rfl⟩
  | invalid info =>
    obtain ⟨b, rfl⟩ := h
    exact outcomesAgreeButCache_next ⟨b, rfl⟩

theorem fetch_of_agreeButCache {s t : State} (h : AgreeButCache s t) : fetch t = fetch s := by
  obtain ⟨b, rfl⟩ := h
  rfl

theorem step_agreeButCache {s t : State} (h : AgreeButCache s t) : OutcomesAgreeButCache (step s) (step t) := by
  have hft := fetch_of_agreeButCache h
  cases hfs : fetch s with
  | error f => exact .inr ⟨f, step_of_stopped hfs, step_of_stopped (hft.trans hfs)⟩
  | ok e =>
    rw [step_of_fetch hfs, step_of_fetch (hft.trans hfs)]
    exact execDecoded_agreeButCache (slotDecode e) h

theorem runSteps_agreeButCache (n : Nat) {s t : State} (h : AgreeButCache s t) :
    OutcomesAgreeButCache (runSteps n s) (runSteps n t) := by
  induction n generalizing s t with
  | zero => exact outcomesAgreeButCache_next h
  | succ n ih =>
    rw [runSteps_succ, runSteps_succ]
    obtain ⟨u, v, hu, hv, huv⟩ | ⟨f, hfs, hft⟩ := step_agreeButCache h
    · rw [hu, hv]
      exact ih huv
    · rw [hfs, hft]
      exact .inr ⟨f, rfl, rfl⟩

/-- Settles O36: CACHE and the bare advance of the pc give states that agree but for `cache_enabled`, and every step keeps that. -/
theorem cacheNeverMatters : Obligations.CacheNeverMatters := by
  unfold Obligations.CacheNeverMatters
  intro s t code n h
  obtain rfl := (exec_next_iff (.cache code) s t).1 h
  obtain ⟨u, v, hu, hv, b, rfl⟩ | ⟨f, hfs, hft⟩ := runSteps_agreeButCache n (advance_agreeButCache_effect_cache code s)
  · rw [hu, hv]
    exact ⟨rfl, rfl, rfl, rfl, rfl, rfl⟩
  · rw [hfs, hft]

/-! ## R66: the program store -/

theorem step_program {s t : State} (h : step s = .next t) : t.program = s.program := by
  obtain ⟨e, -, ⟨i, -, hx⟩ | ⟨tag, -, rfl⟩ | ⟨info, -, rfl⟩⟩ := step_next_cases h
  · exact (exec_program_fatal hx).1
  · rfl
  · rfl

/-- No arm reads the program: each hands it on as it stands. -/
theorem effect_withProgram (i : Instr) (s : State) (p : List Slot) :
    effect i { s with program := p } = { effect i s with program := p } := by
  cases i with
  | bne rs rt offset => rw [effect_bne, effect_bne]; rfl
  | cache code =>
    simp only [effect]
    cases cacheDirective code <;> rfl
  | add | sub | addi | slt | lw | sw | j | jal | halt => rfl
  | unknown00 | unknown0C0F | unknown101F | unknown203F | unknown407F | unknown80FF => rfl

/-- Settles O37: no step writes the program, and each instruction's effect commutes with putting another program in the store. -/
theorem programNeverWrittenNorRead : Obligations.ProgramNeverWrittenNorRead := by
  unfold Obligations.ProgramNeverWrittenNorRead
  constructor
  · intro s t h
    exact step_program h
  · intro i s t p h
    obtain rfl := (exec_next_iff i s t).1 h
    rw [exec_eq, effect_withProgram]

/-! ## R54: what a step does to the memory -/

theorem effect_mem_of_ne_sw {i : Instr} (s : State) (h : ∀ rt rs offset, i ≠ .sw rt rs offset) :
    (effect i s).mem = s.mem := by
  cases i with
  | sw rt rs offset => exact absurd rfl (h rt rs offset)
  | bne rs rt offset => rw [effect_bne]; rfl
  | cache code => simp
  | add | sub | addi | slt | lw | j | jal | halt => rfl
  | unknown00 | unknown0C0F | unknown101F | unknown203F | unknown407F | unknown80FF => rfl

/-- All a step can do to the memory: nothing, or the one write of the SW at the pc (R151). -/
theorem step_mem_cases {s t : State} (h : step s = .next t) :
    t.mem = s.mem ∨ ∃ rt rs offset, atPc s (.instr (.sw rt rs offset)) ∧
      t.mem = Memory.write s.mem (effectiveAddress s rs offset) (readReg s rt) := by
  obtain ⟨e, hf, ⟨i, hd, hx⟩ | ⟨tag, -, rfl⟩ | ⟨info, -, rfl⟩⟩ := step_next_cases h
  · obtain rfl := (exec_next_iff i s t).1 hx
    by_cases hsw : ∃ rt rs offset, i = .sw rt rs offset
    · obtain ⟨rt, rs, offset, rfl⟩ := hsw
      exact .inr ⟨rt, rs, offset, atPc_of_fetch hf hd, rfl⟩
    · push Not at hsw
      exact .inl (effect_mem_of_ne_sw s hsw)
  · exact .inl rfl
  · exact .inl rfl

theorem isSome_lookup_write {m : Memory} {c : Word} (a v : Word) (h : (Memory.lookup m c).isSome = true) :
    (Memory.lookup (Memory.write m a v) c).isSome = true := by
  rw [lookup_write]
  split
  · rfl
  · exact h

/-- Settles O38: a step that is no store keeps the memory; a store's write unsets no address and changes only its own. -/
theorem memoryChangesOnlyByStores : Obligations.MemoryChangesOnlyByStores := by
  unfold Obligations.MemoryChangesOnlyByStores
  intro s t h a
  obtain hm | ⟨rt, rs, offset, hat, hm⟩ := step_mem_cases h
  · rw [hm]
    exact ⟨id, fun hne => absurd rfl hne⟩
  · rw [hm]
    refine ⟨isSome_lookup_write _ _, fun hne => ?_⟩
    obtain rfl : a = effectiveAddress s rs offset := by_contra fun ha => hne (lookup_write_other ha)
    exact ⟨rt, rs, offset, hat, rfl, lookup_write_same ..⟩

/-! ## R52, R53: reads and writes -/

theorem read_of_set {m : Memory} {a v : Word} (h : Memory.lookup m a = some v) : Memory.read m a = v := by
  simp [Memory.read, h]

/-- Settles O39: the two cases of a read, and of an address after a write. -/
theorem memoryReadAndWrite : Obligations.MemoryReadAndWrite := by
  unfold Obligations.MemoryReadAndWrite
  exact ⟨fun _ _ _ => read_of_set, fun _ _ => read_of_unset, lookup_write_same, fun _ _ _ _ => lookup_write_other⟩

end Sys2Proof.Machine

/-! PROOFS. 30_encoding.md: the word level's opcode numbers, must-be-zero fields and table rows (R101, R104), the tokens' grammar
(R86 to R88), and the record level's tags and order of decoding (R81, R89). -/

namespace Sys2Proof.Machine

/-! ## The word level: decoding by the opcode field -/

theorem wordDecode_of_opcode {w : InstrWord} {o : Opcode} (h : opcodeOfNumber (opField w) = some o) :
    wordDecode w = wordOperands o w := by
  simp [wordDecode, h]

theorem wordDecode_of_no_opcode {w : InstrWord} (h : opcodeOfNumber (opField w) = none) :
    wordDecode w = .instr (unknownRow (opField w)) := by
  simp [wordDecode, h]

/-! ### The must-be-zero fields of each format (R101, R104)

Each lemma speaks of one opcode of its format; for the others of the format `mbzViolated` is the same proposition. -/

theorem not_mbzViolated_R3 (w : InstrWord) : ¬ mbzViolated .add w ↔ zField w = 0 ∧ immField w = 0 := by
  simp only [mbzViolated]; tauto

theorem not_mbzViolated_RI (w : InstrWord) : ¬ mbzViolated .addi w ↔ zField w = 0 ∧ cField w = 0 := by
  simp only [mbzViolated]; tauto

theorem not_mbzViolated_I (w : InstrWord) :
    ¬ mbzViolated .j w ↔ zField w = 0 ∧ aField w = 0 ∧ bField w = 0 ∧ cField w = 0 := by
  simp only [mbzViolated]; tauto

theorem not_mbzViolated_N (w : InstrWord) :
    ¬ mbzViolated .halt w ↔ zField w = 0 ∧ aField w = 0 ∧ bField w = 0 ∧ cField w = 0 ∧ immField w = 0 := by
  simp only [mbzViolated]; tauto

/-- What each format's decoder answers, from the condition `P` under which the word is valid. -/
theorem valid_or_mbz {o : Opcode} {w : InstrWord} {P : Prop} [Decidable P] (hP : ¬ mbzViolated o w ↔ P) {i : Instr}
    {d : Decoded} (hd : d = if P then .instr i else .invalid .mbz) (hi : opcodeOf i = some o) :
    (mbzViolated o w ∧ d = .invalid .mbz) ∨ (¬ mbzViolated o w ∧ ∃ k, d = .instr k ∧ opcodeOf k = some o) := by
  by_cases hp : P
  · exact .inr ⟨hP.2 hp, i, hd.trans (if_pos hp), hi⟩
  · exact .inl ⟨not_not.1 (mt hP.1 hp), hd.trans (if_neg hp)⟩

/-- A word of one of the eleven opcodes (R104, R105): invalid by its must-be-zero fields, or an instruction of the opcode. -/
theorem wordOperands_cases (o : Opcode) (w : InstrWord) :
    (mbzViolated o w ∧ wordOperands o w = .invalid .mbz) ∨
    (¬ mbzViolated o w ∧ ∃ i, wordOperands o w = .instr i ∧ opcodeOf i = some o) := by
  cases o with
  | add | sub | slt => refine valid_or_mbz ?_ rfl rfl; exact not_mbzViolated_R3 w
  | addi | bne | lw | sw => refine valid_or_mbz ?_ rfl rfl; exact not_mbzViolated_RI w
  | j | jal | cache => refine valid_or_mbz ?_ rfl rfl; exact not_mbzViolated_I w
  | halt => refine valid_or_mbz ?_ rfl rfl; exact not_mbzViolated_N w

theorem not_mbzViolated_of_wordDecode {w : InstrWord} {o : Opcode} {i : Instr} (ho : opcodeOfNumber (opField w) = some o)
    (h : wordDecode w = .instr i) : ¬ mbzViolated o w ∧ opcodeOf i = some o := by
  rw [wordDecode_of_opcode ho] at h
  obtain ⟨-, hinv⟩ | ⟨hmbz, k, hk, hko⟩ := wordOperands_cases o w
  · cases h.symm.trans hinv
  · cases h.symm.trans hk
    exact ⟨hmbz, hko⟩

theorem wordDecode_eq_mbz_iff {w : InstrWord} {o : Opcode} (ho : opcodeOfNumber (opField w) = some o) :
    wordDecode w = .invalid .mbz ↔ mbzViolated o w := by
  rw [wordDecode_of_opcode ho]
  obtain ⟨hmbz, hinv⟩ | ⟨hmbz, k, hk, -⟩ := wordOperands_cases o w
  · exact iff_of_true hinv hmbz
  · rw [hk]
    exact iff_of_false nofun hmbz

theorem wordDecode_invalid {w : InstrWord} {info : InvalidInfo} (h : wordDecode w = .invalid info) :
    info = .mbz ∧ ∃ o, opcodeOfNumber (opField w) = some o := by
  cases ho : opcodeOfNumber (opField w) with
  | none => cases (wordDecode_of_no_opcode ho).symm.trans h
  | some o =>
    rw [wordDecode_of_opcode ho] at h
    obtain ⟨-, hinv⟩ | ⟨-, k, hk, -⟩ := wordOperands_cases o w
    · cases h.symm.trans hinv
      exact ⟨rfl, o, rfl⟩
    · cases h.symm.trans hk

/-! ### Opcode numbers -/

/-- The number of an opcode (R101). -/
def opcodeNumber : Opcode → BitVec 8
  | .add => 0x01
  | .sub => 0x02
  | .addi => 0x03
  | .lw => 0x04
  | .sw => 0x05
  | .slt => 0x06
  | .bne => 0x07
  | .j => 0x08
  | .jal => 0x09
  | .cache => 0x0A
  | .halt => 0x0B

theorem opcodeOfNumber_opcodeNumber (o : Opcode) : opcodeOfNumber (opcodeNumber o) = some o := by
  cases o <;> rfl

theorem opcodeOfNumber_eq_some_iff (op : BitVec 8) (o : Opcode) : opcodeOfNumber op = some o ↔ op = opcodeNumber o := by
  constructor
  · intro h
    apply BitVec.eq_of_toNat_eq
    unfold opcodeOfNumber at h
    split at h <;> cases h <;> assumption
  · rintro rfl
    exact opcodeOfNumber_opcodeNumber o

theorem opcodeOfNumber_eq_none_iff (op : BitVec 8) : opcodeOfNumber op = none ↔ op.toNat = 0 ∨ 0x0C ≤ op.toNat := by
  constructor
  · intro h
    by_contra hop
    push Not at hop
    obtain ⟨hpos, hlt⟩ := hop
    unfold opcodeOfNumber at h
    generalize op.toNat = n at h hpos hlt
    interval_cases n <;> contradiction
  · intro h
    refine Option.eq_none_iff_forall_ne_some.2 fun o ho => ?_
    obtain rfl := (opcodeOfNumber_eq_some_iff op o).1 ho
    revert h
    cases o <;> decide

/-! ### Rows of the opcode table, field by field -/

/-- Two words are equal exactly when their fields are (R100). -/
theorem word_eq_iff_fields (v w : InstrWord) : v = w ↔ opField v = opField w ∧ zField v = zField w ∧
    aField v = aField w ∧ bField v = bField w ∧ cField v = cField w ∧ immField v = immField w := by
  constructor
  · rintro rfl
    simp
  · rintro ⟨hop, hz, ha, hb, hc, himm⟩
    rw [← word_of_fields v, ← word_of_fields w, hop, hz, ha, hb, hc, himm]

/-- A masked word holds an `op` number and zeros exactly when each field, masked, does. -/
theorem and_eq_packWord_iff (w m : InstrWord) (op : BitVec 8) : w &&& m = packWord op 0 0 0 0 ↔
    opField w &&& opField m = op ∧ zField w &&& zField m = 0 ∧ aField w &&& aField m = 0 ∧
    bField w &&& bField m = 0 ∧ cField w &&& cField m = 0 ∧ immField w &&& immField m = 0 := by
  have hop : opField (w &&& m) = opField w &&& opField m := BitVec.extractLsb'_and
  have hz : zField (w &&& m) = zField w &&& zField m := BitVec.extractLsb'_and
  have ha : aField (w &&& m) = aField w &&& aField m := BitVec.extractLsb'_and
  have hb : bField (w &&& m) = bField w &&& bField m := BitVec.extractLsb'_and
  have hc : cField (w &&& m) = cField w &&& cField m := BitVec.extractLsb'_and
  have himm : immField (w &&& m) = immField w &&& immField m := BitVec.extractLsb'_and
  rw [word_eq_iff_fields, hop, hz, ha, hb, hc, himm]
  simp

/-! An all-ones mask keeps a field of each width. -/

@[simp] theorem and_ones_5 (x : BitVec 5) : x &&& 31#5 = x := BitVec.and_allOnes

@[simp] theorem and_ones_8 (x : BitVec 8) : x &&& 255#8 = x := BitVec.and_allOnes

@[simp] theorem and_ones_9 (x : BitVec 9) : x &&& 511#9 = x := BitVec.and_allOnes

@[simp] theorem and_ones_32 (x : BitVec 32) : x &&& 4294967295#32 = x := BitVec.and_allOnes

/-! What matching the mask of each format, and of a row that fixes the `op` field alone, asks of the fields. -/

section Masks
variable (w : InstrWord) (op : BitVec 8)

theorem matchesR3_iff : w &&& 0xFF0001FFFFFFFFFF = packWord op 0 0 0 0 ↔
    opField w = op ∧ zField w = 0 ∧ immField w = 0 := by
  rw [and_eq_packWord_iff]
  simp [opField, aField, bField, cField, zField, immField]

theorem matchesRI_iff : w &&& 0xFF003FFF00000000 = packWord op 0 0 0 0 ↔
    opField w = op ∧ zField w = 0 ∧ cField w = 0 := by
  rw [and_eq_packWord_iff]
  simp [opField, aField, bField, cField, zField, immField]

theorem matchesI_iff : w &&& 0xFFFFFFFF00000000 = packWord op 0 0 0 0 ↔
    opField w = op ∧ zField w = 0 ∧ aField w = 0 ∧ bField w = 0 ∧ cField w = 0 := by
  rw [and_eq_packWord_iff]
  simp [opField, aField, bField, cField, zField, immField]

theorem matchesN_iff : w &&& 0xFFFFFFFFFFFFFFFF = packWord op 0 0 0 0 ↔
    opField w = op ∧ zField w = 0 ∧ aField w = 0 ∧ bField w = 0 ∧ cField w = 0 ∧ immField w = 0 := by
  rw [and_eq_packWord_iff]
  simp [opField, aField, bField, cField, zField, immField]

theorem matchesOp_iff (m : BitVec 8) : w &&& packWord m 0 0 0 0 = packWord op 0 0 0 0 ↔ opField w &&& m = op := by
  rw [and_eq_packWord_iff]
  simp

end Masks

/-- A word matches a row, in the sense of spec/opcode_table.json (R104). -/
def matchesRow (w : InstrWord) (row : TableRow) : Prop := w &&& row.mask = row.pattern

/-- The mask of an opcode's row: the `op` field and the must-be-zero fields of its format. -/
def opcodeMask : Opcode → InstrWord
  | .add | .sub | .slt => 0xFF0001FFFFFFFFFF
  | .addi | .lw | .sw | .bne => 0xFF003FFF00000000
  | .j | .jal | .cache => 0xFFFFFFFF00000000
  | .halt => 0xFFFFFFFFFFFFFFFF

theorem tableRow_of_opcodeOf {k : Instr} {o : Opcode} (hk : opcodeOf k = some o) :
    tableRow k = ⟨packWord (opcodeNumber o) 0 0 0 0, opcodeMask o⟩ := by
  cases k <;> cases hk <;> rfl

/-- The rows of the eleven instructions: the opcode number, and every must-be-zero field zero. -/
theorem matchesRow_iff_of_opcodeOf {k : Instr} {o : Opcode} (hk : opcodeOf k = some o) (w : InstrWord) :
    matchesRow w (tableRow k) ↔ opField w = opcodeNumber o ∧ ¬ mbzViolated o w := by
  rw [tableRow_of_opcodeOf hk, matchesRow]
  cases o with
  | add | sub | slt => exact (matchesR3_iff w _).trans (and_congr_right' (not_mbzViolated_R3 w).symm)
  | addi | lw | sw | bne => exact (matchesRI_iff w _).trans (and_congr_right' (not_mbzViolated_RI w).symm)
  | j | jal | cache => exact (matchesI_iff w _).trans (and_congr_right' (not_mbzViolated_I w).symm)
  | halt => exact (matchesN_iff w _).trans (and_congr_right' (not_mbzViolated_N w).symm)

/-- The rows of the unknown opcodes. -/
def unknownRows : List TableRow :=
  [tableRow .unknown00, tableRow (.unknown0C0F 0), tableRow (.unknown101F 0), tableRow (.unknown203F 0),
   tableRow (.unknown407F 0), tableRow (.unknown80FF 0)]

/-- A check over the 256 `op` numbers: the masks of the six rows part the numbers that are no opcode's as `unknownRow` does. -/
theorem unknownRow_masked : ∀ op : BitVec 8, ∀ row ∈ unknownRows,
    op &&& opField row.mask = opField row.pattern ↔ opcodeOfNumber op = none ∧ tableRow (unknownRow op) = row := by
  decide +kernel

/-- The rows of the unknown opcodes: the opcode number alone, in the row's range. -/
theorem matchesRow_iff_of_unknown {k : Instr} (hk : opcodeOf k = none) (w : InstrWord) :
    matchesRow w (tableRow k) ↔ opcodeOfNumber (opField w) = none ∧ tableRow (unknownRow (opField w)) = tableRow k := by
  have hrow (op m : BitVec 8) (hmem : ⟨packWord op 0 0 0 0, packWord m 0 0 0 0⟩ ∈ unknownRows) :=
    (matchesOp_iff w op m).trans (by simpa using unknownRow_masked (opField w) _ hmem)
  cases k with
  | unknown00 => exact hrow 0x00 0xFF (by decide)
  | unknown0C0F => exact hrow 0x0C 0xFC (by decide)
  | unknown101F => exact hrow 0x10 0xF0 (by decide)
  | unknown203F => exact hrow 0x20 0xE0 (by decide)
  | unknown407F => exact hrow 0x40 0xC0 (by decide)
  | unknown80FF => exact hrow 0x80 0x80 (by decide)
  | _ => cases hk

theorem opcodeOf_unknownRow (op : BitVec 8) : opcodeOf (unknownRow op) = none := by
  unfold unknownRow
  split_ifs <;> rfl

theorem matchesRow_of_wordDecode {w : InstrWord} {i : Instr} (h : wordDecode w = .instr i) : matchesRow w (tableRow i) := by
  cases ho : opcodeOfNumber (opField w) with
  | none =>
    cases (wordDecode_of_no_opcode ho).symm.trans h
    exact (matchesRow_iff_of_unknown (opcodeOf_unknownRow _) w).2 ⟨ho, rfl⟩
  | some o =>
    obtain ⟨hmbz, hi⟩ := not_mbzViolated_of_wordDecode ho h
    exact (matchesRow_iff_of_opcodeOf hi w).2 ⟨(opcodeOfNumber_eq_some_iff _ _).1 ho, hmbz⟩

theorem exists_wordDecode_of_matchesRow {w : InstrWord} {k : Instr} (h : matchesRow w (tableRow k)) :
    ∃ i, wordDecode w = .instr i ∧ tableRow i = tableRow k := by
  cases hk : opcodeOf k with
  | none =>
    obtain ⟨ho, hrow⟩ := (matchesRow_iff_of_unknown hk w).1 h
    exact ⟨_, wordDecode_of_no_opcode ho, hrow⟩
  | some o =>
    obtain ⟨hop, hmbz⟩ := (matchesRow_iff_of_opcodeOf hk w).1 h
    rw [wordDecode_of_opcode ((opcodeOfNumber_eq_some_iff _ _).2 hop)]
    obtain ⟨hbad, -⟩ | ⟨-, i, hi, hio⟩ := wordOperands_cases o w
    · exact absurd hbad hmbz
    · exact ⟨i, hi, (tableRow_of_opcodeOf hio).trans (tableRow_of_opcodeOf hk).symm⟩

/-! ### A malformed word when fetched -/

theorem step_of_slotAtPc {s : State} {e : Slot} (hs : canStep s) (he : slotAtPc s = some e) :
    step s = execDecoded (slotDecode e) s := by
  obtain ⟨e', hf⟩ := exists_fetch_of_canStep hs
  obtain rfl : e' = e := Option.some.inj ((slotAtPc_of_fetch hf).symm.trans he)
  exact step_of_fetch hf

/-- Settles O8: validity is the must-be-zero condition of the opcode's format, and so is the row's mask. -/
theorem mustBeZeroAndTableRows : Obligations.MustBeZeroAndTableRows := by
  unfold Obligations.MustBeZeroAndTableRows
  refine ⟨fun w o ho => wordDecode_eq_mbz_iff ho, fun w info h => ?_, fun s w o hs he ho hmbz => ?_, fun w k => ⟨?_, ?_⟩⟩
  · obtain ⟨rfl, o, ho⟩ := wordDecode_invalid h
    have hop : ¬ ((opField w).toNat = 0 ∨ 0x0C ≤ (opField w).toNat) := by
      simp [← opcodeOfNumber_eq_none_iff, ho]
    exact ⟨rfl, by omega, by omega⟩
  · refine ⟨raiseInvalidOperand .mbz s, ?_, rfl⟩
    rw [step_of_slotAtPc hs he, slotDecode, (wordDecode_eq_mbz_iff ho).2 hmbz]
    rfl
  · exact exists_wordDecode_of_matchesRow
  · rintro ⟨i, hi, hrow⟩
    exact hrow ▸ matchesRow_of_wordDecode hi

/-! ### The fields at their weights (R101, R107) -/

theorem packWord_eq_wordOf (op : BitVec 8) (a b c : BitVec 5) (imm : Word) :
    packWord op a b c imm = wordOf op.toNat a.toNat b.toNat c.toNat imm.toNat := by
  rw [wordOf, ← packWord_toNat, BitVec.ofNat_toNat, BitVec.setWidth_eq]

theorem wordDecode_packWord {op : BitVec 8} {o : Opcode} (ho : opcodeOfNumber op = some o) (a b c : BitVec 5) (imm : Word) :
    wordDecode (packWord op a b c imm) = wordOperands o (packWord op a b c imm) :=
  wordDecode_of_opcode (by rw [opField_packWord, ho])

/-- R107's first law, for the eleven instructions. -/
theorem wordDecode_encode_of_isCore {i : Instr} (h : isCore i = true) : wordDecode (encode i) = .instr i := by
  cases i with
  | add | sub | slt => exact (wordDecode_packWord rfl ..).trans (by simp [wordOperands, wordR3])
  | addi | lw | sw | bne => exact (wordDecode_packWord rfl ..).trans (by simp [wordOperands, wordRI])
  | j | jal | cache => exact (wordDecode_packWord rfl ..).trans (by simp [wordOperands, wordI])
  | halt => exact (wordDecode_packWord rfl ..).trans (by simp [wordOperands, wordN])
  | unknown00 | unknown0C0F | unknown101F | unknown203F | unknown407F | unknown80FF => cases h

/-- A word given by its field values decodes to the instruction whose encoding has those fields. -/
theorem wordDecode_wordOf (op : BitVec 8) (a b c : BitVec 5) (imm : Word) {i : Instr} (h : isCore i = true)
    (henc : encode i = packWord op a b c imm) :
    wordDecode (wordOf op.toNat a.toNat b.toNat c.toNat imm.toNat) = .instr i := by
  rw [← packWord_eq_wordOf, ← henc, wordDecode_encode_of_isCore h]

/-! ### Unknown opcodes (R101, R105, R202) -/

theorem opField_toNat (w : InstrWord) : (opField w).toNat = w.toNat / 2 ^ 56 := by
  have := w.isLt
  rw [opField, BitVec.extractLsb'_toNat, Nat.shiftRight_eq_div_pow]
  omega

theorem opField_eq_ofNat (w : InstrWord) : opField w = BitVec.ofNat 8 (w.toNat / 2 ^ 56) := by
  rw [← opField_toNat, BitVec.ofNat_toNat, BitVec.setWidth_eq]

theorem isCore_unknownRow (op : BitVec 8) : isCore (unknownRow op) = false := by
  unfold unknownRow
  split_ifs <;> rfl

/-- The notice of an unknown opcode carries the word's own number (R202). -/
theorem instrEvent_unknownRow_notice (s : State) (ev : TraceEvent) (op : BitVec 8) :
    (instrEvent s ev (unknownRow op)).notice = some (.unknownOpcode (.number op)) := by
  unfold unknownRow
  split_ifs with h0
  · obtain rfl : op = 0 := BitVec.eq_of_toNat_eq h0
    rfl
  all_goals rfl

/-- Settles O7: the words of the eleven are their encodings; the others go by the `op` field alone. -/
theorem opcodeNumbersAndFields : Obligations.OpcodeNumbersAndFields := by
  unfold Obligations.OpcodeNumbersAndFields
  refine ⟨fun rd rs rt => ?_, fun r1 r2 v => ?_, fun v => ?_, ?_, fun w o ho hmbz i hi => ?_, fun w hop => ?_,
    fun w hop => ?_⟩
  · exact ⟨wordDecode_wordOf 0x01 (regBits rd) (regBits rs) (regBits rt) 0 rfl rfl,
      wordDecode_wordOf 0x02 (regBits rd) (regBits rs) (regBits rt) 0 rfl rfl,
      wordDecode_wordOf 0x06 (regBits rd) (regBits rs) (regBits rt) 0 rfl rfl⟩
  · exact ⟨wordDecode_wordOf 0x03 (regBits r1) (regBits r2) 0 v rfl rfl,
      wordDecode_wordOf 0x04 (regBits r1) (regBits r2) 0 v rfl rfl,
      wordDecode_wordOf 0x05 (regBits r1) (regBits r2) 0 v rfl rfl,
      wordDecode_wordOf 0x07 (regBits r1) (regBits r2) 0 v rfl rfl⟩
  · exact ⟨wordDecode_wordOf 0x08 0 0 0 v rfl rfl,
      wordDecode_wordOf 0x09 0 0 0 v rfl rfl,
      wordDecode_wordOf 0x0A 0 0 0 v rfl rfl⟩
  · exact wordDecode_wordOf 0x0B 0 0 0 0 rfl rfl
  · exact (not_mbzViolated_of_wordDecode ho hi).1 hmbz
  · have hzero : opField w = 0 := BitVec.eq_of_toNat_eq ((opField_toNat w).trans hop)
    rw [wordDecode_of_no_opcode (by rw [hzero]; rfl), hzero]
    rfl
  · have hnone : opcodeOfNumber (opField w) = none :=
      (opcodeOfNumber_eq_none_iff _).2 (.inr ((opField_toNat w).symm ▸ hop))
    refine ⟨_, wordDecode_of_no_opcode hnone, isCore_unknownRow _, fun s ev => ?_⟩
    rw [instrEvent_unknownRow_notice, opField_eq_ofNat]

/-! ## Decimal digits -/

theorem digitValue_eq_some_iff (c : Char) (d : Nat) :
    digitValue c = some d ↔ (48 ≤ c.toNat ∧ c.toNat ≤ 57) ∧ c.toNat - 48 = d := by
  simp [digitValue]

theorem digitsValue_eq_some_iff (acc : Nat) (ds : Token) (n : Nat) : digitsValue acc ds = some n ↔
    (∀ c ∈ ds, 48 ≤ c.toNat ∧ c.toNat ≤ 57) ∧ ds.foldl (fun n c => 10 * n + (c.toNat - 48)) acc = n := by
  induction ds generalizing acc with
  | nil => simp [digitsValue]
  | cons c cs ih =>
    simp only [digitsValue, List.forall_mem_cons, List.foldl_cons, and_assoc]
    cases hc : digitValue c with
    | none =>
      have hno : ¬ (48 ≤ c.toNat ∧ c.toNat ≤ 57) := fun h => by simp [(digitValue_eq_some_iff c _).2 ⟨h, rfl⟩] at hc
      exact iff_of_false (by simp) fun ⟨hlo, hhi, _⟩ => hno ⟨hlo, hhi⟩
    | some d =>
      obtain ⟨hdigit, rfl⟩ := (digitValue_eq_some_iff c d).1 hc
      simp [ih, hdigit]

theorem naturalValue_eq_some_iff (ds : Token) (n : Nat) :
    naturalValue ds = some n ↔ isDigits ds ∧ decimalValue ds = n := by
  cases ds with
  | nil => simp [naturalValue, isDigits]
  | cons c cs => simp [naturalValue, isDigits, decimalValue, digitsValue_eq_some_iff]

theorem naturalValue_of_digits {ds : Token} (h : isDigits ds) : naturalValue ds = some (decimalValue ds) :=
  (naturalValue_eq_some_iff ds _).2 ⟨h, rfl⟩

theorem naturalValue_of_not_digits {ds : Token} (h : ¬ isDigits ds) : naturalValue ds = none := by
  rw [Option.eq_none_iff_forall_ne_some]
  exact fun n hn => h ((naturalValue_eq_some_iff ds n).1 hn).1

/-! ## R86: register tokens -/

theorem parseRegister_of_digits {ds : Token} (h : isDigits ds) : parseRegister ('R' :: ds) =
    if hlt : decimalValue ds < 32 then .ok ⟨decimalValue ds, hlt⟩ else .error .registerRange := by
  simp [parseRegister, naturalValue_of_digits h]

theorem parseRegister_of_malformed {t : Token} (h : ¬ ∃ ds, t = 'R' :: ds ∧ isDigits ds) :
    parseRegister t = .error .malformedRegister := by
  cases t with
  | nil => rfl
  | cons c cs =>
    by_cases hc : c = 'R'
    · have hcs : ¬ isDigits cs := fun hd => h ⟨cs, by rw [hc], hd⟩
      simp [parseRegister, hc, naturalValue_of_not_digits hcs]
    · simp [parseRegister, hc]

theorem parseRegister_eq_ok_iff (t : Token) (r : RegIdx) :
    parseRegister t = .ok r ↔ ∃ ds, t = 'R' :: ds ∧ isDigits ds ∧ decimalValue ds = r.val := by
  constructor
  · intro h
    obtain ⟨ds, rfl, hd⟩ : ∃ ds, t = 'R' :: ds ∧ isDigits ds :=
      by_contra fun hbad => by simp [parseRegister_of_malformed hbad] at h
    rw [parseRegister_of_digits hd] at h
    split at h
    · cases h
      exact ⟨ds, rfl, hd, rfl⟩
    · cases h
  · rintro ⟨ds, rfl, hd, hv⟩
    simp [parseRegister_of_digits hd, hv]

theorem parseRegister_eq_registerRange_iff (t : Token) :
    parseRegister t = .error .registerRange ↔ ∃ ds, t = 'R' :: ds ∧ isDigits ds ∧ 31 < decimalValue ds := by
  constructor
  · intro h
    obtain ⟨ds, rfl, hd⟩ : ∃ ds, t = 'R' :: ds ∧ isDigits ds :=
      by_contra fun hbad => by simp [parseRegister_of_malformed hbad] at h
    rw [parseRegister_of_digits hd] at h
    split at h
    · cases h
    · exact ⟨ds, rfl, hd, by omega⟩
  · rintro ⟨ds, rfl, hd, hv⟩
    rw [parseRegister_of_digits hd, dif_neg (by omega)]

theorem parseRegister_eq_malformedRegister_iff (t : Token) :
    parseRegister t = .error .malformedRegister ↔ ¬ ∃ ds, t = 'R' :: ds ∧ isDigits ds := by
  refine ⟨?_, parseRegister_of_malformed⟩
  rintro h ⟨ds, rfl, hd⟩
  rw [parseRegister_of_digits hd] at h
  split at h <;> cases h

/-- Settles O13: `R` and digits are answered by their value, every other token is malformed. -/
theorem registerTokenGrammar : Obligations.RegisterTokenGrammar := by
  unfold Obligations.RegisterTokenGrammar
  exact ⟨parseRegister_eq_ok_iff, parseRegister_eq_registerRange_iff, parseRegister_eq_malformedRegister_iff⟩

/-! ## R87: integer literals -/

/-- The token is an optional sign and digits, and writes the integer `v` (R87). -/
def WritesLiteral (t : Token) (v : Int) : Prop :=
  ∃ ds, isDigits ds ∧
    (((t = ds ∨ t = '+' :: ds) ∧ (decimalValue ds : Int) = v) ∨ (t = '-' :: ds ∧ -(decimalValue ds : Int) = v))

theorem literalValue_plus (ds : Token) : literalValue ('+' :: ds) = (naturalValue ds).map Int.ofNat := rfl

theorem literalValue_minus (ds : Token) : literalValue ('-' :: ds) = (naturalValue ds).map fun n => -Int.ofNat n := rfl

theorem literalValue_of_no_sign {c : Char} (cs : Token) (hplus : c ≠ '+') (hminus : c ≠ '-') :
    literalValue (c :: cs) = (naturalValue (c :: cs)).map Int.ofNat := by
  simp [literalValue, hplus, hminus]

theorem literalValue_of_digits {ds : Token} (h : isDigits ds) : literalValue ds = some (decimalValue ds : Int) := by
  obtain ⟨hne, hdigit⟩ := h
  cases ds with
  | nil => exact absurd rfl hne
  | cons c cs =>
    have hc := hdigit c List.mem_cons_self
    have hplus : c ≠ '+' := by rintro rfl; revert hc; decide
    have hminus : c ≠ '-' := by rintro rfl; revert hc; decide
    rw [literalValue_of_no_sign cs hplus hminus, naturalValue_of_digits ⟨hne, hdigit⟩]
    rfl

theorem literalValue_eq_some_iff (t : Token) (v : Int) : literalValue t = some v ↔ WritesLiteral t v := by
  constructor
  · intro h
    cases t with
    | nil => cases h
    | cons c cs =>
      by_cases hplus : c = '+'
      · subst hplus
        obtain ⟨n, hn, rfl⟩ := Option.map_eq_some_iff.1 (literalValue_plus cs ▸ h)
        obtain ⟨hd, rfl⟩ := (naturalValue_eq_some_iff cs n).1 hn
        exact ⟨cs, hd, .inl ⟨.inr rfl, rfl⟩⟩
      by_cases hminus : c = '-'
      · subst hminus
        obtain ⟨n, hn, rfl⟩ := Option.map_eq_some_iff.1 (literalValue_minus cs ▸ h)
        obtain ⟨hd, rfl⟩ := (naturalValue_eq_some_iff cs n).1 hn
        exact ⟨cs, hd, .inr ⟨rfl, rfl⟩⟩
      obtain ⟨n, hn, rfl⟩ := Option.map_eq_some_iff.1 (literalValue_of_no_sign cs hplus hminus ▸ h)
      obtain ⟨hd, rfl⟩ := (naturalValue_eq_some_iff (c :: cs) n).1 hn
      exact ⟨c :: cs, hd, .inl ⟨.inl rfl, rfl⟩⟩
  · rintro ⟨ds, hd, ⟨rfl | rfl, rfl⟩ | ⟨rfl, rfl⟩⟩
    · exact literalValue_of_digits hd
    · rw [literalValue_plus, naturalValue_of_digits hd]; rfl
    · rw [literalValue_minus, naturalValue_of_digits hd]; rfl

theorem parseLiteral_of_inWordRange {t : Token} {v : Int} (h : WritesLiteral t v) (hv : inWordRange v) :
    parseLiteral t = .ok (BitVec.ofInt 32 v) := by
  simp [parseLiteral, (literalValue_eq_some_iff t v).2 h, hv.1, hv.2]

theorem parseLiteral_of_not_inWordRange {t : Token} {v : Int} (h : WritesLiteral t v) (hv : ¬ inWordRange v) :
    parseLiteral t = .error .literalRange := by
  simp only [parseLiteral, (literalValue_eq_some_iff t v).2 h]
  exact if_neg hv

theorem parseLiteral_of_malformed {t : Token} (h : ¬ ∃ v, WritesLiteral t v) :
    parseLiteral t = .error .malformedLiteral := by
  have hnone : literalValue t = none :=
    Option.eq_none_iff_forall_ne_some.2 fun v hv => h ⟨v, (literalValue_eq_some_iff t v).1 hv⟩
  simp [parseLiteral, hnone]

/-- All a token can be to `parseLiteral` (R87). -/
theorem parseLiteral_cases (t : Token) :
    (∃ v, WritesLiteral t v ∧ inWordRange v ∧ parseLiteral t = .ok (BitVec.ofInt 32 v)) ∨
    (∃ v, WritesLiteral t v ∧ ¬ inWordRange v ∧ parseLiteral t = .error .literalRange) ∨
    ((¬ ∃ v, WritesLiteral t v) ∧ parseLiteral t = .error .malformedLiteral) := by
  by_cases hform : ∃ v, WritesLiteral t v
  · obtain ⟨v, h⟩ := hform
    by_cases hv : inWordRange v
    · exact .inl ⟨v, h, hv, parseLiteral_of_inWordRange h hv⟩
    · exact .inr (.inl ⟨v, h, hv, parseLiteral_of_not_inWordRange h hv⟩)
  · exact .inr (.inr ⟨hform, parseLiteral_of_malformed hform⟩)

theorem inWordRange_toInt (v : Word) : inWordRange v.toInt := by
  have hlo := v.le_toInt
  have hhi := v.toInt_lt
  unfold inWordRange
  omega

theorem toInt_ofInt_of_inWordRange {v : Int} (h : inWordRange v) : (BitVec.ofInt 32 v).toInt = v :=
  BitVec.toInt_ofInt_eq_self (by decide) h.1 (by have := h.2; omega)

theorem parseLiteral_eq_ok_iff (t : Token) (v : Word) : parseLiteral t = .ok v ↔ WritesLiteral t v.toInt := by
  constructor
  · intro h
    obtain ⟨u, hu, hrange, hp⟩ | ⟨u, -, -, hp⟩ | ⟨-, hp⟩ := parseLiteral_cases t
    · obtain rfl : BitVec.ofInt 32 u = v := Except.ok.inj (hp.symm.trans h)
      rwa [toInt_ofInt_of_inWordRange hrange]
    · cases hp.symm.trans h
    · cases hp.symm.trans h
  · intro h
    rw [parseLiteral_of_inWordRange h (inWordRange_toInt v), BitVec.ofInt_toInt]

theorem parseLiteral_eq_literalRange_iff (t : Token) :
    parseLiteral t = .error .literalRange ↔ ∃ v, WritesLiteral t v ∧ ¬ inWordRange v := by
  constructor
  · intro h
    obtain ⟨u, -, -, hp⟩ | ⟨u, hu, hrange, -⟩ | ⟨-, hp⟩ := parseLiteral_cases t
    · cases hp.symm.trans h
    · exact ⟨u, hu, hrange⟩
    · cases hp.symm.trans h
  · rintro ⟨v, h, hv⟩
    exact parseLiteral_of_not_inWordRange h hv

theorem parseLiteral_eq_malformedLiteral_iff (t : Token) :
    parseLiteral t = .error .malformedLiteral ↔ ¬ ∃ v, WritesLiteral t v := by
  constructor
  · intro h
    obtain ⟨u, -, -, hp⟩ | ⟨u, -, -, hp⟩ | ⟨hform, -⟩ := parseLiteral_cases t
    · cases hp.symm.trans h
    · cases hp.symm.trans h
    · exact hform
  · exact parseLiteral_of_malformed

/-- Settles O14: each of the three answers goes by the integer the token writes, if it writes one. -/
theorem literalGrammar : Obligations.LiteralGrammar := by
  unfold Obligations.LiteralGrammar
  refine ⟨parseLiteral_eq_ok_iff, fun t => ?_, fun t => ?_⟩
  · rw [parseLiteral_eq_literalRange_iff]
    constructor
    · rintro ⟨v, ⟨ds, hd, ⟨ht, rfl⟩ | ⟨ht, rfl⟩⟩, hv⟩
      · exact ⟨ds, hd, .inl ⟨ht, by unfold inWordRange at hv; omega⟩⟩
      · exact ⟨ds, hd, .inr ⟨ht, by unfold inWordRange at hv; omega⟩⟩
    · rintro ⟨ds, hd, ⟨ht, hv⟩ | ⟨ht, hv⟩⟩
      · exact ⟨_, ⟨ds, hd, .inl ⟨ht, rfl⟩⟩, by unfold inWordRange; omega⟩
      · exact ⟨_, ⟨ds, hd, .inr ⟨ht, rfl⟩⟩, by unfold inWordRange; omega⟩
  · rw [parseLiteral_eq_malformedLiteral_iff, not_iff_not]
    constructor
    · rintro ⟨v, ds, hd, ⟨rfl | rfl, -⟩ | ⟨rfl, -⟩⟩
      · exact ⟨t, hd, .inl rfl⟩
      · exact ⟨ds, hd, .inr (.inl rfl)⟩
      · exact ⟨ds, hd, .inr (.inr rfl)⟩
    · rintro ⟨ds, hd, ht | ht | ht⟩
      · exact ⟨_, ds, hd, .inl ⟨.inl ht, rfl⟩⟩
      · exact ⟨_, ds, hd, .inl ⟨.inr ht, rfl⟩⟩
      · exact ⟨_, ds, hd, .inr ⟨ht, rfl⟩⟩

/-! ## R88: memory tokens -/

theorem splitAtOpen_cons_of_ne {c : Char} (cs : Token) (hc : c ≠ '(') :
    splitAtOpen (c :: cs) = (splitAtOpen cs).map fun p => (c :: p.1, p.2) := by
  simp [splitAtOpen, hc]

theorem splitAtOpen_append {before : Token} (after : Token) (h : '(' ∉ before) :
    splitAtOpen (before ++ '(' :: after) = some (before, after) := by
  induction before with
  | nil => rfl
  | cons c cs ih =>
    obtain ⟨hc, hcs⟩ := List.ne_and_not_mem_of_not_mem_cons h
    rw [List.cons_append, splitAtOpen_cons_of_ne _ hc.symm, ih hcs]
    rfl

theorem eq_append_of_splitAtOpen {t before after : Token} (h : splitAtOpen t = some (before, after)) :
    t = before ++ '(' :: after := by
  induction t generalizing before with
  | nil => cases h
  | cons c cs ih =>
    by_cases hc : c = '('
    · subst hc
      cases h
      rfl
    · rw [splitAtOpen_cons_of_ne cs hc, Option.map_eq_some_iff] at h
      obtain ⟨p, hp, he⟩ := h
      cases he
      rw [ih hp, List.cons_append]

theorem dropClose_cons (c : Char) {cs : Token} (h : cs ≠ []) : dropClose (c :: cs) = (dropClose cs).map (c :: ·) := by
  cases cs with
  | nil => exact absurd rfl h
  | cons d ds => rfl

theorem dropClose_append (inside : Token) : dropClose (inside ++ [')']) = some inside := by
  induction inside with
  | nil => rfl
  | cons c cs ih =>
    rw [List.cons_append, dropClose_cons c (by simp), ih]
    rfl

theorem eq_append_of_dropClose {t inside : Token} (h : dropClose t = some inside) : t = inside ++ [')'] := by
  induction t using dropClose.induct generalizing inside with
  | case1 => cases h
  | case2 => cases h; rfl
  | case3 c hc => simp [dropClose, hc] at h
  | case4 c d cs ih =>
    obtain ⟨u, hu, rfl⟩ := Option.map_eq_some_iff.1 h
    rw [ih hu, List.cons_append]

/-- A literal is written in digits and signs, so the first `(` of a memory token ends it. -/
theorem open_not_mem_of_writesLiteral {t : Token} {v : Int} (h : WritesLiteral t v) : '(' ∉ t := by
  obtain ⟨ds, ⟨-, hd⟩, ht⟩ := h
  have hds : '(' ∉ ds := fun hmem => absurd (hd _ hmem) (by decide)
  obtain ⟨rfl | rfl, -⟩ | ⟨rfl, -⟩ := ht
  · exact hds
  · simpa using hds
  · simpa using hds

theorem parseMemory_of_split {t before after inside : Token} (hs : splitAtOpen t = some (before, after))
    (hc : dropClose after = some inside) (offset : Word) (rs : RegIdx) : parseMemory t = .ok (offset, rs) ↔
      parseLiteral before = .ok offset ∧ parseRegister inside = .ok rs := by
  simp only [parseMemory, parseMemoryWith, hs, hc]
  cases parseLiteral before with
  | error f => simp
  | ok v => cases parseRegister inside <;> simp

/-- Settles O15: a literal holds no `(`, so `splitAtOpen` and `dropClose` find its parts, and what they find is the token. -/
theorem memoryTokenGrammar : Obligations.MemoryTokenGrammar := by
  unfold Obligations.MemoryTokenGrammar
  intro t offset rs
  constructor
  · intro h
    cases hs : splitAtOpen t with
    | none => simp [parseMemory, parseMemoryWith, hs] at h
    | some p =>
      obtain ⟨l, after⟩ := p
      cases hc : dropClose after with
      | none => simp [parseMemory, parseMemoryWith, hs, hc] at h
      | some r =>
        obtain ⟨hl, hr⟩ := (parseMemory_of_split hs hc offset rs).1 h
        obtain rfl := eq_append_of_splitAtOpen hs
        obtain rfl := eq_append_of_dropClose hc
        exact ⟨l, r, by simp, hl, hr⟩
  · rintro ⟨l, r, rfl, hl, hr⟩
    have hopen := open_not_mem_of_writesLiteral ((parseLiteral_eq_ok_iff l offset).1 hl)
    rw [List.append_assoc]
    exact (parseMemory_of_split (splitAtOpen_append _ hopen) (dropClose_append r) offset rs).2 ⟨hl, hr⟩

/-! ## R81: opcode tags -/

/-- In a list that pairs each key once, looking a key up finds its pair. -/
theorem lookup_eq_some_iff_mem {α β : Type} [BEq α] [LawfulBEq α] {l : List (α × β)}
    (h : (l.map Prod.fst).Nodup) (a : α) (b : β) :
    l.lookup a = some b ↔ (a, b) ∈ l := by
  rw [List.lookup_eq_some_iff]
  constructor
  · rintro ⟨l₁, l₂, rfl, -⟩
    simp
  · intro hmem
    obtain ⟨l₁, l₂, rfl⟩ := List.append_of_mem hmem
    refine ⟨l₁, l₂, rfl, fun p hp => bne_iff_ne.2 ?_⟩
    rintro rfl
    rw [List.map_append, List.map_cons] at h
    exact (List.nodup_append.1 h).2.2 _ (List.mem_map_of_mem hp) _ List.mem_cons_self rfl

theorem opcodeOfTag_eq_some_iff (tag : Token) (o : Opcode) :
    opcodeOfTag tag = some o ↔ (tag.map upperChar, o) ∈ opcodeNames :=
  lookup_eq_some_iff_mem (by decide) _ _

theorem opcodeOfTag_eq_none {tag : Token} (h : tag.map upperChar ∉ opcodeNames.map fun p => p.1) :
    opcodeOfTag tag = none :=
  Option.eq_none_iff_forall_ne_some.2 fun o ho => h (List.mem_map_of_mem ((opcodeOfTag_eq_some_iff tag o).1 ho))

/-! ## R89: the order of decoding -/

theorem recordDecode_of_opcodeOfTag_none {r : Record} (h : opcodeOfTag r.opcode = none) :
    recordDecode r = .unknownTag r.opcode := by
  simp [recordDecode, h]

theorem recordDecode_of_operands_ok {r : Record} {o : Opcode} {i : Instr} (h : opcodeOfTag r.opcode = some o)
    (hi : recordOperands o r.operands = .ok i) : recordDecode r = .instr i := by
  simp [recordDecode, h, hi]

theorem recordDecode_of_operands_error {r : Record} {o : Opcode} {info : InvalidInfo} (h : opcodeOfTag r.opcode = some o)
    (hi : recordOperands o r.operands = .error info) : recordDecode r = .invalid info := by
  simp [recordDecode, h, hi]

/-- Settles O12: the eleven names are distinct, so the first pair found is the only one. -/
theorem opcodeNamesWholeTag : Obligations.OpcodeNamesWholeTag := by
  unfold Obligations.OpcodeNamesWholeTag
  exact ⟨opcodeOfTag_eq_some_iff,
    fun tag ts h => recordDecode_of_opcodeOfTag_none (r := ⟨tag, ts⟩) (opcodeOfTag_eq_none h), rfl⟩

/-! ### The first bad operand -/

/-- The report of the first bad token from the left, the tokens counted from `k`; none when all are good (R89). -/
def firstBad (k : Nat) : List OperandKind → List Token → Option InvalidInfo
  | kind :: kinds, t :: ts =>
    match tokenFault kind t with
    | some f => some (.operand k t f)
    | none => firstBad (k + 1) kinds ts
  | _, _ => none

theorem firstBad_of_good {kind : OperandKind} {t : Token} (k : Nat) (kinds : List OperandKind) (ts : List Token)
    (h : tokenFault kind t = none) : firstBad k (kind :: kinds) (t :: ts) = firstBad (k + 1) kinds ts := by
  simp [firstBad, h]

theorem firstBad_of_bad {kind : OperandKind} {t : Token} {f : OperandFault} (k : Nat) (kinds : List OperandKind)
    (ts : List Token) (h : tokenFault kind t = some f) : firstBad k (kind :: kinds) (t :: ts) = some (.operand k t f) := by
  simp [firstBad, h]

theorem firstBad_eq_none {k : Nat} {kinds : List OperandKind} {ts : List Token}
    (h : ∀ (j : Nat) u kd, ts[j]? = some u → kinds[j]? = some kd → tokenFault kd u = none) : firstBad k kinds ts = none := by
  induction kinds generalizing k ts with
  | nil => rfl
  | cons kind kinds ih =>
    cases ts with
    | nil => rfl
    | cons t ts =>
      rw [firstBad_of_good k kinds ts (h 0 t kind rfl rfl)]
      exact ih fun j => h (j + 1)

theorem firstBad_eq_some {n k : Nat} {kinds : List OperandKind} {ts : List Token} {t : Token} {kind : OperandKind}
    {f : OperandFault} (ht : ts[k]? = some t) (hk : kinds[k]? = some kind) (hf : tokenFault kind t = some f)
    (hbefore : ∀ (j : Nat) u kd, j < k → ts[j]? = some u → kinds[j]? = some kd → tokenFault kd u = none) :
    firstBad n kinds ts = some (.operand (n + k) t f) := by
  induction k generalizing n kinds ts with
  | zero =>
    obtain ⟨kinds, rfl⟩ := List.head?_eq_some_iff.1 (List.head?_eq_getElem? ▸ hk)
    obtain ⟨ts, rfl⟩ := List.head?_eq_some_iff.1 (List.head?_eq_getElem? ▸ ht)
    exact firstBad_of_bad n kinds ts hf
  | succ k ih =>
    cases kinds with
    | nil => cases hk
    | cons kd kinds =>
      cases ts with
      | nil => cases ht
      | cons u ts =>
        rw [firstBad_of_good n kinds ts (hbefore 0 u kd k.succ_pos rfl rfl),
          ih ht hk fun j u kd hj => hbefore (j + 1) u kd (Nat.succ_lt_succ hj), Nat.add_right_comm, Nat.add_assoc]

/-- A decoding of operand tokens of these kinds, counted from `k`, answers as R89 says: with the first bad token from the left, or
else with a value that the tokens give. -/
def AnswersTokens {α : Type} (gives : α → Prop) (k : Nat) (kinds : List OperandKind) (ts : List Token)
    (x : Except InvalidInfo α) : Prop :=
  match firstBad k kinds ts with
  | some info => x = .error info
  | none => ∃ v, x = .ok v ∧ gives v

/-- The fault a parser found. -/
def faultOf {β : Type} : Except OperandFault β → Option OperandFault
  | .ok _ => none
  | .error f => some f

theorem tokenFault_register (t : Token) : tokenFault .register t = faultOf (parseRegister t) := by
  unfold tokenFault
  cases parseRegister t <;> rfl

theorem tokenFault_literal (t : Token) : tokenFault .literal t = faultOf (parseLiteral t) := by
  unfold tokenFault
  cases parseLiteral t <;> rfl

theorem tokenFault_memory (t : Token) : tokenFault .memory t = faultOf (parseMemory t) := by
  unfold tokenFault
  cases parseMemory t <;> rfl

section Formats
variable {α β : Type} {gives : α → Prop} {ts : List Token}

theorem answersTokens_nil {k : Nat} {v : α} (h : gives v) : AnswersTokens gives k [] [] (.ok v) := ⟨v, rfl, h⟩

/-- Reading one token and then the others: a bad token ends it, a good one hands its value on. -/
theorem answersTokens_cons {k : Nat} {kind : OperandKind} {kinds : List OperandKind} {t : Token}
    {parsed : Except OperandFault β} {rest : β → Except InvalidInfo α} (hparsed : tokenFault kind t = faultOf parsed)
    (hrest : ∀ v, parsed = .ok v → AnswersTokens gives (k + 1) kinds ts (rest v)) :
    AnswersTokens gives k (kind :: kinds) (t :: ts) (operandAt k t parsed >>= rest) := by
  unfold AnswersTokens at *
  cases parsed with
  | error f =>
    rw [firstBad_of_bad k kinds ts hparsed]
    rfl
  | ok v =>
    rw [firstBad_of_good k kinds ts hparsed]
    exact hrest v rfl

theorem recordR3_answers {make : RegIdx → RegIdx → RegIdx → α} (hlen : ts.length = 3)
    (hgives : ∀ r1 r2 r3, tokensR3 r1 r2 r3 ts → gives (make r1 r2 r3)) :
    AnswersTokens gives 1 [.register, .register, .register] ts (recordR3 make ts) := by
  obtain ⟨t1, t2, t3, rfl⟩ := List.length_eq_three.1 hlen
  refine answersTokens_cons (tokenFault_register t1) fun r1 h1 => ?_
  refine answersTokens_cons (tokenFault_register t2) fun r2 h2 => ?_
  refine answersTokens_cons (tokenFault_register t3) fun r3 h3 => ?_
  exact answersTokens_nil (hgives r1 r2 r3 ⟨t1, t2, t3, rfl, h1, h2, h3⟩)

theorem recordRI_answers {make : RegIdx → RegIdx → Word → α} (hlen : ts.length = 3)
    (hgives : ∀ r1 r2 v, tokensRI r1 r2 v ts → gives (make r1 r2 v)) :
    AnswersTokens gives 1 [.register, .register, .literal] ts (recordRI parseLiteral make ts) := by
  obtain ⟨t1, t2, t3, rfl⟩ := List.length_eq_three.1 hlen
  refine answersTokens_cons (tokenFault_register t1) fun r1 h1 => ?_
  refine answersTokens_cons (tokenFault_register t2) fun r2 h2 => ?_
  refine answersTokens_cons (tokenFault_literal t3) fun v h3 => ?_
  exact answersTokens_nil (hgives r1 r2 v ⟨t1, t2, t3, rfl, h1, h2, h3⟩)

theorem recordM_answers {make : RegIdx → RegIdx → Word → α} (hlen : ts.length = 2)
    (hgives : ∀ r1 rs offset, tokensM r1 rs offset ts → gives (make r1 rs offset)) :
    AnswersTokens gives 1 [.register, .memory] ts (recordM parseMemory make ts) := by
  obtain ⟨t1, t2, rfl⟩ := List.length_eq_two.1 hlen
  refine answersTokens_cons (tokenFault_register t1) fun r1 h1 => ?_
  refine answersTokens_cons (tokenFault_memory t2) fun m h2 => ?_
  exact answersTokens_nil (hgives r1 m.2 m.1 ⟨t1, t2, rfl, h1, h2⟩)

theorem recordI_answers {make : Word → α} (hlen : ts.length = 1) (hgives : ∀ v, tokensI v ts → gives (make v)) :
    AnswersTokens gives 1 [.literal] ts (recordI parseLiteral make ts) := by
  obtain ⟨t1, rfl⟩ := List.length_eq_one_iff.1 hlen
  refine answersTokens_cons (tokenFault_literal t1) fun v h1 => ?_
  exact answersTokens_nil (hgives v ⟨t1, rfl, h1⟩)

theorem recordN_answers {i : α} (hlen : ts.length = 0) (hgives : ts = [] → gives i) :
    AnswersTokens gives 1 [] ts (recordN i ts) := by
  obtain rfl := List.length_eq_zero_iff.1 hlen
  exact answersTokens_nil (hgives rfl)

end Formats

/-- The operands of a recognised opcode, when their number is right (R82, R89). -/
theorem recordOperands_answers {o : Opcode} {ts : List Token} (hlen : ts.length = (operandKinds o).length) :
    AnswersTokens (fun i => opcodeOf i = some o ∧ tokensGive i ts) 1 (operandKinds o) ts (recordOperands o ts) := by
  cases o with
  | add | sub | slt => exact recordR3_answers hlen fun _ _ _ h => ⟨rfl, h⟩
  | addi | bne => exact recordRI_answers hlen fun _ _ _ h => ⟨rfl, h⟩
  | lw | sw => exact recordM_answers hlen fun _ _ _ h => ⟨rfl, h⟩
  | j | jal | cache => exact recordI_answers hlen fun _ h => ⟨rfl, h⟩
  | halt => exact recordN_answers hlen fun h => ⟨rfl, h⟩

/-! ### The arity -/

section Arity
variable {α : Type} {ts : List Token}

theorem recordR3_arity {make : RegIdx → RegIdx → RegIdx → α} (h : ts.length ≠ 3) : recordR3 make ts = .error .arity := by
  unfold recordR3
  split
  · exact absurd rfl h
  · rfl

theorem recordRI_arity {make : RegIdx → RegIdx → Word → α} (h : ts.length ≠ 3) :
    recordRI parseLiteral make ts = .error .arity := by
  unfold recordRI
  split
  · exact absurd rfl h
  · rfl

theorem recordM_arity {make : RegIdx → RegIdx → Word → α} (h : ts.length ≠ 2) :
    recordM parseMemory make ts = .error .arity := by
  unfold recordM
  split
  · exact absurd rfl h
  · rfl

theorem recordI_arity {make : Word → α} (h : ts.length ≠ 1) : recordI parseLiteral make ts = .error .arity := by
  unfold recordI
  split
  · exact absurd rfl h
  · rfl

theorem recordN_arity {i : α} (h : ts.length ≠ 0) : recordN i ts = .error .arity := by
  unfold recordN
  split
  · exact absurd rfl h
  · rfl

end Arity

theorem recordOperands_arity {o : Opcode} {ts : List Token} (h : ts.length ≠ (operandKinds o).length) :
    recordOperands o ts = .error .arity := by
  cases o with
  | add | sub | slt => exact recordR3_arity h
  | addi | bne => exact recordRI_arity h
  | lw | sw => exact recordM_arity h
  | j | jal | cache => exact recordI_arity h
  | halt => exact recordN_arity h

/-- Settles O11: the tag, the arity, then what `recordOperands_answers` says of the first bad operand and of good ones. -/
theorem recordDecodeOrder : Obligations.RecordDecodeOrder := by
  unfold Obligations.RecordDecodeOrder
  refine ⟨fun r => recordDecode_of_opcodeOfTag_none, fun r o ho => ⟨fun hlen => ?_, ?_, fun hlen hgood => ?_⟩⟩
  · exact recordDecode_of_operands_error ho (recordOperands_arity hlen)
  · intro k t kind f hlen ht hk hf hbefore
    have hans := recordOperands_answers hlen
    rw [AnswersTokens, firstBad_eq_some ht hk hf hbefore, Nat.add_comm] at hans
    exact recordDecode_of_operands_error ho hans
  · have hans := recordOperands_answers hlen
    rw [AnswersTokens, firstBad_eq_none hgood] at hans
    obtain ⟨i, hi, hgives⟩ := hans
    exact ⟨i, recordDecode_of_operands_ok ho hi, hgives⟩

end Sys2Proof.Machine

/-! PROOFS. 40_fetch_decode_dispatch.md: when a step exists (R121). -/

namespace Sys2Proof.Machine

/-! ## R121: a step exists exactly where `canStep` holds -/

/-- Whatever an entry decodes to, its arm completes. -/
theorem exists_execDecoded_eq_next (d : Decoded) (s : State) : ∃ t, execDecoded d s = .next t := by
  cases d with
  | instr i => exact ⟨effect i s, exec_eq i s⟩
  | unknownTag tag => exact ⟨skipUnknown s, rfl⟩
  | invalid info => exact ⟨raiseInvalidOperand info s, rfl⟩

theorem exists_step_next_of_canStep {s : State} (h : canStep s) : ∃ t, step s = .next t := by
  obtain ⟨e, he⟩ := exists_fetch_of_canStep h
  rw [step_of_fetch he]
  exact exists_execDecoded_eq_next (slotDecode e) s

theorem canStep_of_step_next {s t : State} (h : step s = .next t) : canStep s := by
  obtain ⟨e, he, -⟩ := step_next_cases h
  exact ((fetch_ok_iff s e).1 he).1

/-- The fault of a stopped state is the stop reason of its status output (R189, R240). -/
theorem exists_stopReason_of_not_canStep {s : State} (h : ¬ canStep s) : ∃ f, step s = .fault f ∧ stopReason s = some f := by
  cases hf : fetch s with
  | error f => exact ⟨f, step_of_stopped hf, by rw [stopReason, hf]⟩
  | ok e => exact absurd ((fetch_ok_iff s e).1 hf).1 h

theorem step_ne_refused (s : State) (r : Refusal) : step s ≠ .refused r := by
  by_cases h : canStep s
  · obtain ⟨t, ht⟩ := exists_step_next_of_canStep h
    simp [ht]
  · obtain ⟨f, hf, -⟩ := exists_stopReason_of_not_canStep h
    simp [hf]

/-- Settles O17: where a step exists the fetched entry's arm completes; elsewhere the fetch gives the stop reason. -/
theorem stepExistsIffCanStep : Obligations.StepExistsIffCanStep := by
  unfold Obligations.StepExistsIffCanStep
  refine fun s => ⟨⟨fun ⟨_, ht⟩ => canStep_of_step_next ht, exists_step_next_of_canStep⟩, fun h => ?_, step_ne_refused s⟩
  obtain ⟨f, hf, -⟩ := exists_stopReason_of_not_canStep h
  exact ⟨f, hf⟩

end Sys2Proof.Machine

/-! PROOFS. 41_arithmetic_compare.md: ADD, SUB, ADDI and SLT (R140 to R143), and the two encodings of an instruction. -/

namespace Sys2Proof.Machine

/-! ## Writing a result register and going on -/

@[simp] theorem regInt_finishReg_same (s : State) (r : RegIdx) (v : Word) : regInt (finishReg s r v) r = v.toInt := by
  simp [regInt, readReg_finishReg]

theorem finishReg_keepsRegsBut (s : State) (r : RegIdx) (v : Word) : keepsRegsBut r s (finishReg s r v) := fun q hq => by
  simp [regInt, readReg_finishReg, hq]

theorem finishReg_keepsMemory (s : State) (r : RegIdx) (v : Word) : keepsMemory s (finishReg s r v) := fun _ => ⟨rfl, rfl⟩

theorem finishReg_keepsControl (s : State) (r : RegIdx) (v : Word) : keepsControl s (finishReg s r v) := ⟨rfl, rfl, rfl, rfl⟩

/-! ## The two encodings of one instruction (R82, R101, R107) -/

section Formats
variable {α : Type} {ts : List Token}

theorem recordR3_of_tokens {make : RegIdx → RegIdx → RegIdx → α} {r1 r2 r3 : RegIdx} (h : tokensR3 r1 r2 r3 ts) :
    recordR3 make ts = .ok (make r1 r2 r3) := by
  obtain ⟨t1, t2, t3, rfl, h1, h2, h3⟩ := h
  simp only [recordR3, operandAt, h1, h2, h3]
  rfl

theorem recordRI_of_tokens {make : RegIdx → RegIdx → Word → α} {r1 r2 : RegIdx} {v : Word} (h : tokensRI r1 r2 v ts) :
    recordRI parseLiteral make ts = .ok (make r1 r2 v) := by
  obtain ⟨t1, t2, t3, rfl, h1, h2, h3⟩ := h
  simp only [recordRI, operandAt, h1, h2, h3]
  rfl

theorem recordM_of_tokens {make : RegIdx → RegIdx → Word → α} {r1 rs : RegIdx} {offset : Word}
    (h : tokensM r1 rs offset ts) : recordM parseMemory make ts = .ok (make r1 rs offset) := by
  obtain ⟨t1, t2, rfl, h1, h2⟩ := h
  simp only [recordM, operandAt, h1, h2]
  rfl

theorem recordI_of_tokens {make : Word → α} {v : Word} (h : tokensI v ts) : recordI parseLiteral make ts = .ok (make v) := by
  obtain ⟨t1, rfl, h1⟩ := h
  simp only [recordI, operandAt, h1]
  rfl

end Formats

/-- Tokens that give an instruction's operands are read back as that instruction. -/
theorem recordOperands_of_tokensGive {i : Instr} {o : Opcode} {ts : List Token} (ho : opcodeOf i = some o)
    (h : tokensGive i ts) : recordOperands o ts = .ok i := by
  cases i with
  | add | sub | slt => cases ho; exact recordR3_of_tokens h
  | addi | bne => cases ho; exact recordRI_of_tokens h
  | lw | sw => cases ho; exact recordM_of_tokens h
  | j | jal | cache => cases ho; exact recordI_of_tokens h
  | halt => cases ho; cases h; rfl
  | unknown00 | unknown0C0F | unknown101F | unknown203F | unknown407F | unknown80FF => cases ho

theorem isCore_of_opcodeOf {i : Instr} {o : Opcode} (h : opcodeOf i = some o) : isCore i = true := by
  cases i with
  | unknown00 | unknown0C0F | unknown101F | unknown203F | unknown407F | unknown80FF => cases h
  | add | sub | addi | lw | sw | slt | bne | j | jal | cache | halt => rfl

/-- Both encodings of an instruction decode to it: its tag names its opcode, and its word has these fields. -/
theorem encodedAs_of_encode_eq {i : Instr} {o : Opcode} {tag : Token} (op : BitVec 8) (a b c : BitVec 5) (imm : Word)
    (ho : opcodeOf i = some o) (htag : opcodeOfTag tag = some o) (henc : encode i = packWord op a b c imm) :
    encodedAs i tag op.toNat a.toNat b.toNat c.toNat imm.toNat :=
  ⟨fun _ hts => recordDecode_of_operands_ok htag (recordOperands_of_tokensGive ho hts),
    henc.trans (packWord_eq_wordOf op a b c imm), wordDecode_wordOf op a b c imm (isCore_of_opcodeOf ho) henc⟩

/-- Tokens as `encodedAs` supposes them exist for the two formats of this family, R3 and RI. -/
theorem witness_tokensGive_R3_RI : tokensGive (.add 31 0 31) [['R', '3', '1'], ['R', '0', '0'], ['R', '3', '1']] ∧
    tokensGive (.addi 1 1 (-1)) [['R', '1'], ['R', '1'], ['-', '1']] :=
  ⟨⟨_, _, _, rfl, rfl, rfl, rfl⟩, _, _, _, rfl, rfl, rfl, rfl⟩

/-! ## R140 to R143: the four results -/

/-- What the rules of ADD, SUB, ADDI and SLT share: an instruction whose arm writes one result register writes
nothing else but the pc. -/
theorem exec_result_of_effect_eq_finishReg {i : Instr} {s : State} {r : RegIdx} {v : Word} {z : Int} {tag : Token}
    {op a b c imm : Nat} (heff : effect i s = finishReg s r v) (hv : v.toInt = z) (henc : encodedAs i tag op a b c imm) :
    ∃ t, exec i s = .next t ∧ regInt t r = z ∧ keepsRegsBut r s t ∧ t.pc = s.pc + 1 ∧ keepsMemory s t ∧
      keepsControl s t ∧ encodedAs i tag op a b c imm := by
  refine ⟨finishReg s r v, heff ▸ exec_eq i s, ?_, finishReg_keepsRegsBut s r v, finishReg_pc s r v,
    finishReg_keepsMemory s r v, finishReg_keepsControl s r v, henc⟩
  rw [regInt_finishReg_same, hv]

/-- Settles O20: ADD's arm writes the wrapped sum, both sources read before the write (R145). -/
theorem addResult : Obligations.AddResult := by
  unfold Obligations.AddResult
  intro s rd rs rt
  exact exec_result_of_effect_eq_finishReg rfl (wrap32_toInt _)
    (encodedAs_of_encode_eq 0x01 (regBits rd) (regBits rs) (regBits rt) 0 rfl rfl rfl)

/-- Settles O21: SUB's arm writes the wrapped difference. -/
theorem subResult : Obligations.SubResult := by
  unfold Obligations.SubResult
  intro s rd rs rt
  exact exec_result_of_effect_eq_finishReg rfl (wrap32_toInt _)
    (encodedAs_of_encode_eq 0x02 (regBits rd) (regBits rs) (regBits rt) 0 rfl rfl rfl)

/-- Settles O22: ADDI's arm writes the wrapped sum with the signed immediate as it stands. -/
theorem addiResult : Obligations.AddiResult := by
  unfold Obligations.AddiResult
  intro s rt rs imm
  exact exec_result_of_effect_eq_finishReg rfl (wrap32_toInt _)
    (encodedAs_of_encode_eq 0x03 (regBits rt) (regBits rs) 0 imm rfl rfl rfl)

/-- Settles O23: SLT's arm writes the comparison of the two values as integers, no subtraction between them. -/
theorem sltResult : Obligations.SltResult := by
  unfold Obligations.SltResult
  intro s rd rs rt
  exact exec_result_of_effect_eq_finishReg rfl (lessThanWord_toInt _ _)
    (encodedAs_of_encode_eq 0x06 (regBits rd) (regBits rs) (regBits rt) 0 rfl rfl rfl)

end Sys2Proof.Machine

/-! PROOFS. 42_load_store.md: LW and SW (R150 to R152). -/

namespace Sys2Proof.Machine

/-! ## The effective address, and the word at an address -/

theorem effectiveAddress_toInt (s : State) (rs : RegIdx) (offset : Word) :
    (effectiveAddress s rs offset).toInt = wrapInt (regInt s rs + offset.toInt) := wrap32_toInt _

theorem loadWord_eq_lookup_getD (s : State) (a : Word) : loadWord s a = (Memory.lookup s.mem a).getD 0 := rfl

theorem keepsMemoryBut_of_mem_eq_write {s t : State} {a v : Word} (h : t.mem = Memory.write s.mem a v) :
    keepsMemoryBut a s t := by
  intro c hc
  rw [h]
  exact ⟨lookup_write_other hc, read_write_other hc⟩

/-- Tokens as `encodedAs` supposes them exist for format M, the base register equal to the other one included. -/
theorem witness_tokensGive_M : tokensGive (.lw 3 3 0) [['R', '3'], ['0', '(', 'R', '3', ')']] ∧
    tokensGive (.sw 31 5 (-1)) [['R', '3', '1'], ['-', '1', '(', 'R', '5', ')']] :=
  ⟨⟨_, _, rfl, rfl, rfl⟩, _, _, rfl, rfl, rfl⟩

/-! ## R150 and R151: the load and the store -/

/-- Settles O24: LW's arm writes the loaded word to its result register, and so nothing else but the pc. -/
theorem lwResult : Obligations.LwResult := by
  unfold Obligations.LwResult
  intro s rt rs offset
  have hload := congrArg BitVec.toInt (loadWord_eq_lookup_getD s (effectiveAddress s rs offset))
  obtain ⟨t, hexec, hvalue, hframe⟩ := exec_result_of_effect_eq_finishReg (i := .lw rt rs offset) rfl hload
    (encodedAs_of_encode_eq (tag := ['L', 'W']) 0x04 (regBits rt) (regBits rs) 0 offset rfl rfl rfl)
  exact ⟨t, hexec, effectiveAddress_toInt s rs offset, hvalue, hframe⟩

/-- Settles O25: SW's arm is one memory write of `x[rt]`; the address written is set whatever the value, and the others are as
before. -/
theorem swResult : Obligations.SwResult := by
  unfold Obligations.SwResult
  intro s rt rs offset
  have hmem : (effect (.sw rt rs offset) s).mem =
      Memory.write s.mem (effectiveAddress s rs offset) (readReg s rt) := rfl
  have hregs : keepsRegs s (effect (.sw rt rs offset) s) := fun _ => rfl
  have hcontrol : keepsControl s (effect (.sw rt rs offset) s) := ⟨rfl, rfl, rfl, rfl⟩
  refine ⟨_, exec_eq _ s, effectiveAddress_toInt s rs offset, ?_, ?_, keepsMemoryBut_of_mem_eq_write hmem, rfl, hregs,
    hcontrol, encodedAs_of_encode_eq 0x05 (regBits rt) (regBits rs) 0 offset rfl rfl rfl⟩
  · rw [hmem, lookup_write_same]
    rfl
  · rw [hmem, read_write_same]
    rfl

end Sys2Proof.Machine

/-! PROOFS. 43_control_transfer.md: BNE, J and JAL (R160 to R162), and targets outside the program (R163). -/

namespace Sys2Proof.Machine

/-! ## R163: a pc outside the program stops the machine -/

/-- With `running` set and no fatal stop, a pc outside the program is the only reason to stop, and its sign says which (R240). -/
theorem step_of_pc_outside {s : State} (hfatal : s.fatal = none) (hrunning : s.running = true)
    (hout : s.pc < 0 ∨ progLen s ≤ s.pc) : step s = .fault (if s.pc < 0 then .pcBelowZero else .pcPastEnd) := by
  apply step_of_stopped
  rw [fetch_error_iff]
  split
  case isTrue hneg => exact .inr (.inr (.inl ⟨hfatal, hrunning, hneg, rfl⟩))
  case isFalse hneg => exact .inr (.inr (.inr ⟨hfatal, hrunning, hout.resolve_left hneg, rfl⟩))

/-- Where a step exists, an instruction other than HALT keeps the machine running, so only its pc can stop it. -/
theorem effect_stops_of_pc_outside {i : Instr} {s : State} {z : Int} (hs : canStep s) (hi : i ≠ .halt)
    (hpc : (effect i s).pc = z) (hout : z < 0 ∨ progLen s ≤ z) :
    (effect i s).running = true ∧ step (effect i s) = .fault (if z < 0 then .pcBelowZero else .pcPastEnd) := by
  obtain ⟨hfatal, hrunning, -⟩ := hs
  obtain ⟨hprogram', hfatal'⟩ := exec_program_fatal (exec_eq i s)
  have hlen : progLen (effect i s) = progLen s := by rw [progLen, progLen, hprogram']
  have hrunning' : (effect i s).running = true := (effect_running_of_ne_halt s hi).trans hrunning
  rw [← hpc, ← hlen] at hout
  rw [← hpc]
  exact ⟨hrunning', step_of_pc_outside (hfatal'.trans hfatal) hrunning' hout⟩

theorem regInt_link_effect_jal (target : Word) (s : State) : regInt (effect (.jal target) s) 7 = wrapInt (s.pc + 1) := by
  have hlink : readReg (effect (.jal target) s) 7 = wrap32 (s.pc + 1) := readReg_writeReg_same s 7 (linkValue s)
  rw [regInt, hlink]
  exact wrap32_toInt _

/-- Settles O49: none of the three clears `running`, so after each the pc alone, below 0 or past the end, stops the machine. -/
theorem targetsOutsideTheProgramStop : Obligations.TargetsOutsideTheProgramStop := by
  unfold Obligations.TargetsOutsideTheProgramStop
  refine fun s hs => ⟨fun target hout => ⟨?_, ?_⟩, fun rs rt offset hne hout => ?_⟩
  · obtain ⟨hrunning, hstop⟩ := effect_stops_of_pc_outside (i := .j target) hs nofun rfl hout
    exact ⟨_, exec_eq _ s, rfl, hrunning, hstop⟩
  · obtain ⟨hrunning, hstop⟩ := effect_stops_of_pc_outside (i := .jal target) hs nofun rfl hout
    exact ⟨_, exec_eq _ s, rfl, hrunning, regInt_link_effect_jal target s, hstop⟩
  · have hpc := (bne_pc rs rt offset s).trans (if_pos hne)
    obtain ⟨hrunning, hstop⟩ := effect_stops_of_pc_outside (i := .bne rs rt offset) hs nofun hpc hout
    exact ⟨_, exec_eq _ s, hpc, hrunning, hstop⟩

/-! ## R160 to R162: the three results -/

theorem setPc_keepsAllButPc (s : State) (z : Int) : keepsAllButPc s (setPc s z) :=
  ⟨fun _ => rfl, fun _ => ⟨rfl, rfl⟩, rfl, rfl, rfl, rfl⟩

/-- Settles O26: BNE's arm assigns the exact sum to the pc and nothing else; its event has that sum, taken or not (D18). -/
theorem bneResult : Obligations.BneResult := by
  unfold Obligations.BneResult
  intro s rs rt offset
  have hframe : keepsAllButPc s (effect (.bne rs rt offset) s) := effect_bne rs rt offset s ▸ setPc_keepsAllButPc s _
  exact ⟨_, exec_eq _ s, bne_pc rs rt offset s, hframe, fun _ => ⟨rfl, rfl⟩,
    encodedAs_of_encode_eq 0x07 (regBits rs) (regBits rt) 0 offset rfl rfl rfl⟩

/-- Settles O27: J's arm assigns the target word's value to the pc and nothing else. -/
theorem jResult : Obligations.JResult := by
  unfold Obligations.JResult
  intro s target
  exact ⟨_, exec_eq _ s, rfl, setPc_keepsAllButPc s _, fun _ => rfl,
    encodedAs_of_encode_eq 0x08 0 0 0 target rfl rfl rfl⟩

/-- Settles O28: JAL's arm writes the link register before it assigns the pc; the link does not wrap where pc + 1 is a word. -/
theorem jalResult : Obligations.JalResult := by
  unfold Obligations.JalResult
  intro s target
  have hlink := regInt_link_effect_jal target s
  have hexact (hlo : -2147483648 ≤ s.pc + 1) (hhi : s.pc + 1 ≤ 2147483647) :
      regInt (effect (.jal target) s) 7 = s.pc + 1 := by
    rw [hlink, wrapInt]
    omega
  have hregs : keepsRegsBut 7 s (effect (.jal target) s) := fun q hq =>
    congrArg BitVec.toInt (readReg_effect_of_not_written s fun h => hq (Option.some.inj h).symm)
  exact ⟨_, exec_eq _ s, hlink, hexact, hregs, rfl, fun _ => ⟨rfl, rfl⟩, ⟨rfl, rfl, rfl, rfl⟩, fun _ => rfl,
    encodedAs_of_encode_eq 0x09 0 0 0 target rfl rfl rfl⟩

end Sys2Proof.Machine

/-! PROOFS. 44_system.md: CACHE (R170), HALT (R172) and the unknown opcode (R176). -/

namespace Sys2Proof.Machine

/-! ## R170: CACHE -/

/-- The effect on the flag with the code read as a signed integer, as the rule writes it. -/
theorem effect_cache_cacheEnabled_toInt (code : Word) (s : State) : (effect (.cache code) s).cacheEnabled =
    if code.toInt = 0 then false else if code.toInt = 1 then true else s.cacheEnabled := by
  have hcode (c : Word) : code = c ↔ code.toInt = c.toInt := BitVec.toInt_inj.symm
  simp only [effect_cache_cacheEnabled, hcode]
  rfl

/-- The directive of a code read as a signed integer, each value under one case. -/
theorem cacheDirective_cases (code : Word) :
    (code.toInt = 0 ∧ cacheDirective code = .disable) ∨ (code.toInt = 1 ∧ cacheDirective code = .enable) ∨
    (code.toInt = 2 ∧ cacheDirective code = .flush) ∨
    ((code.toInt ≠ 0 ∧ code.toInt ≠ 1 ∧ code.toInt ≠ 2) ∧ cacheDirective code = .unknownCode) := by
  unfold cacheDirective literalInt
  split_ifs with h0 h1 h2
  · exact .inl ⟨h0, rfl⟩
  · exact .inr (.inl ⟨h1, rfl⟩)
  · exact .inr (.inr (.inl ⟨h2, rfl⟩))
  · exact .inr (.inr (.inr ⟨⟨h0, h1, h2⟩, rfl⟩))

theorem cacheEvent_mode (ev : TraceEvent) (code : Word) : (cacheEvent ev code).mode =
    if code.toInt = 0 then some .disabled else if code.toInt = 1 then some .enabled
    else if code.toInt = 2 then some .flush else ev.mode := by
  obtain ⟨h, hd⟩ | ⟨h, hd⟩ | ⟨h, hd⟩ | ⟨h, hd⟩ := cacheDirective_cases code <;> simp [cacheEvent, hd, h]

theorem cacheEvent_notice (ev : TraceEvent) (code : Word) : (cacheEvent ev code).notice =
    if code.toInt = 0 ∨ code.toInt = 1 ∨ code.toInt = 2 then ev.notice else some (.unknownCacheCode code) := by
  obtain ⟨h, hd⟩ | ⟨h, hd⟩ | ⟨h, hd⟩ | ⟨h, hd⟩ := cacheDirective_cases code <;> simp [cacheEvent, hd, h]

/-- Settles O29: CACHE's next state is the advanced one but for `cache_enabled`, and the code decides the flag, the mode and the
notice. -/
theorem cacheResult : Obligations.CacheResult := by
  unfold Obligations.CacheResult
  intro s code
  have hflag := effect_cache_cacheEnabled_toInt code s
  obtain ⟨b, hb⟩ := advance_agreeButCache_effect_cache code s
  rw [hb] at hflag
  exact ⟨_, (exec_eq _ s).trans (congrArg _ hb), hflag, rfl, fun _ => rfl, fun _ => ⟨rfl, rfl⟩, rfl, rfl, rfl,
    fun e => ⟨cacheEvent_mode (bareEvent s e) code, cacheEvent_notice (bareEvent s e) code⟩,
    encodedAs_of_encode_eq 0x0A 0 0 0 code rfl rfl rfl⟩

/-! ## R172: HALT -/

theorem step_of_not_running {s : State} (hfatal : s.fatal = none) (hrunning : s.running = false) :
    step s = .fault .haltInstr :=
  step_of_stopped ((fetch_error_iff s _).2 (.inr (.inl ⟨hfatal, hrunning, rfl⟩)))

theorem not_canStep_of_not_running {s : State} (hrunning : s.running = false) : ¬ canStep s := by
  simp [hrunning]

/-- HALT_PC_INC is 0 (decision D8), so HALT clears `running` and does nothing else. -/
theorem effect_halt (s : State) : effect .halt s = setRunning s false :=
  congrArg (setPc (setRunning s false)) (Int.add_zero s.pc)

/-- Settles O30: HALT only clears `running`, and without `running` no step exists. -/
theorem haltResult : Obligations.HaltResult := by
  unfold Obligations.HaltResult
  intro s
  exact ⟨_, (exec_eq .halt s).trans (congrArg _ (effect_halt s)), rfl, rfl, fun _ => rfl, fun _ => ⟨rfl, rfl⟩, rfl, rfl, rfl,
    fun hfatal => step_of_not_running hfatal rfl, not_canStep_of_not_running rfl,
    encodedAs_of_encode_eq 0x0B 0 0 0 0 rfl rfl rfl⟩

/-! ## R176: the unknown opcode -/

/-- The six unknown rows have one arm: the skip. -/
theorem exec_of_not_isCore {i : Instr} (s : State) (h : isCore i = false) : exec i s = .next (skipUnknown s) := by
  cases i with
  | add | sub | addi | lw | sw | slt | bne | j | jal | cache | halt => cases h
  | unknown00 | unknown0C0F | unknown101F | unknown203F | unknown407F | unknown80FF => rfl

theorem skipUnknown_keepsAllButPc (s : State) : keepsAllButPc s (skipUnknown s) := setPc_keepsAllButPc s _

theorem traceOf_of_slotAtPc {s : State} {e : Slot} (hs : canStep s) (he : slotAtPc s = some e) :
    traceOf s = some (slotEvent s e) := by
  obtain ⟨e', hf⟩ := exists_fetch_of_canStep hs
  obtain rfl : e' = e := Option.some.inj ((slotAtPc_of_fetch hf).symm.trans he)
  rw [traceOf, hf]

theorem slotEvent_of_instr {e : Slot} {i : Instr} (s : State) (h : slotDecode e = .instr i) :
    slotEvent s e = instrEvent s (bareEvent s e) i := by
  rw [slotEvent, h]

theorem slotEvent_of_unknownTag {e : Slot} {tag : Token} (s : State) (h : slotDecode e = .unknownTag tag) :
    slotEvent s e = { bareEvent s e with notice := some (.unknownOpcode (.name tag)) } := by
  rw [slotEvent, h]

/-- What the two levels share: a step whose entry's arm is the skip changes nothing but the pc, and its event has the entry's
notice. -/
theorem step_result_of_skip {s : State} {e : Slot} {notice : Option Notice} (hs : canStep s) (he : slotAtPc s = some e)
    (harm : execDecoded (slotDecode e) s = .next (skipUnknown s)) (hnotice : (slotEvent s e).notice = notice) :
    ∃ t, step s = .next t ∧ t.pc = s.pc + 1 ∧ keepsAllButPc s t ∧ ∃ ev, traceOf s = some ev ∧ ev.notice = notice :=
  ⟨_, (step_of_slotAtPc hs he).trans harm, skipUnknown_pc s, skipUnknown_keepsAllButPc s,
    _, traceOf_of_slotAtPc hs he, hnotice⟩

/-- Settles O31: the arm is the skip for each unknown row, for a record's unknown tag and for a word's unknown number, and the
notice names what the entry holds. -/
theorem unknownOpcodeResult : Obligations.UnknownOpcodeResult := by
  unfold Obligations.UnknownOpcodeResult
  refine ⟨fun s i hi => ?_, fun s e tag hs he hd => ?_, fun s w hs he ho => ?_⟩
  · exact ⟨_, exec_of_not_isCore s hi, skipUnknown_pc s, skipUnknown_keepsAllButPc s⟩
  · apply step_result_of_skip hs he
    · rw [hd]
      rfl
    · rw [slotEvent_of_unknownTag s hd]
  · have hd : slotDecode (.word w) = .instr (unknownRow (opField w)) := wordDecode_of_no_opcode ho
    apply step_result_of_skip hs he
    · rw [hd]
      exact exec_of_not_isCore s (isCore_unknownRow _)
    · rw [slotEvent_of_instr s hd, instrEvent_unknownRow_notice]

end Sys2Proof.Machine

/-! PROOFS. 47_host_interfaces.md: the final report (R188) and a launch with a missing source (R191). -/

namespace Sys2Proof.Machine

/-! ## R188: in which states there is a report -/

theorem stopReason_eq_some_iff (s : State) (f : Fault) : stopReason s = some f ↔ fetch s = .error f := by
  rw [stopReason]
  cases fetch s with
  | error g => simp
  | ok e => simp

theorem stopReason_of_fatal {s : State} {info : InvalidInfo} (h : s.fatal = some info) :
    stopReason s = some (.fatal info) :=
  (stopReason_eq_some_iff s _).2 ((fetch_error_iff s _).2 (.inl ⟨info, h, rfl⟩))

theorem fatal_of_stopReason {s : State} {info : InvalidInfo} (h : stopReason s = some (.fatal info)) :
    s.fatal = some info := by
  simpa using (fetch_error_iff s _).1 ((stopReason_eq_some_iff s _).1 h)

theorem finalReport_of_canStep {s : State} (h : canStep s) : finalReport s = none := by
  rw [finalReport, (stopReason_eq_none_iff s).2 h]

theorem finalReport_of_fatal {s : State} (h : s.fatal ≠ none) : finalReport s = none := by
  obtain ⟨info, hinfo⟩ := Option.ne_none_iff_exists'.1 h
  rw [finalReport, stopReason_of_fatal hinfo]

/-- Each of the three reasons to stop that are not fatal gives the report. -/
theorem finalReport_of_stopped {s : State} (hstop : ¬ canStep s) (hfatal : s.fatal = none) :
    finalReport s = some (contentsOf s) := by
  obtain ⟨f, -, hf⟩ := exists_stopReason_of_not_canStep hstop
  rw [finalReport, hf]
  cases f with
  | fatal info => simp [fatal_of_stopReason hf] at hfatal
  | haltInstr | pcPastEnd | pcBelowZero => rfl

/-! ## R188: the registers of a report -/

theorem contentsOf_registers_length (s : State) : (contentsOf s).registers.length = 32 := by
  simp [contentsOf]

theorem contentsOf_registers_getElem? (s : State) (q : RegIdx) : (contentsOf s).registers[q.val]? = some (regInt s q) := by
  simp [contentsOf, regInt, readReg, Vector.get_eq_getElem]

/-! ## R188: the memory snapshot of a report -/

/-- `Memory.wf` compares each address with the next one only; `<` being transitive, each is below all later ones. -/
theorem snapshotOf_ascending {m : Memory} (h : Memory.wf m = true) :
    ((snapshotOf m).map fun p => p.1).Pairwise (fun x y => x < y) := by
  rw [← List.isChain_iff_pairwise]
  induction m with
  | nil => exact .nil
  | cons p m ih =>
    obtain ⟨habove, hm⟩ := (wf_cons p.1 p.2 m).1 h
    cases m with
    | nil => exact .singleton _
    | cons q m => exact .cons_cons habove (ih hm)

theorem addresses_nodup_of_wf {m : Memory} (h : Memory.wf m = true) : (m.map Prod.fst).Nodup := by
  have hints : ((m.map Prod.fst).map BitVec.toInt).Nodup := by
    rw [List.map_map]
    have hasc := (snapshotOf_ascending h).imp ne_of_lt
    rwa [snapshotOf, List.map_map] at hasc
  exact hints.of_map

theorem memory_lookup_eq_list_lookup (m : Memory) (a : Word) : Memory.lookup m a = List.lookup a m := by
  induction m with
  | nil => rfl
  | cons p m ih =>
    rw [lookup_cons, List.lookup_cons, ih]
    by_cases hab : a = p.1
    · simp [hab]
    · simp [hab, beq_false_of_ne hab]

/-- A word is the integer it stands for, so a snapshot's pair of integers is one pair of words. -/
theorem mem_snapshotOf_toInt_iff (m : Memory) (a v : Word) : (a.toInt, v.toInt) ∈ snapshotOf m ↔ (a, v) ∈ m := by
  simp [snapshotOf, BitVec.toInt_inj]

theorem mem_snapshotOf_iff_lookup {m : Memory} (h : Memory.wf m = true) (a v : Word) :
    (a.toInt, v.toInt) ∈ snapshotOf m ↔ Memory.lookup m a = some v := by
  rw [mem_snapshotOf_toInt_iff, memory_lookup_eq_list_lookup, lookup_eq_some_iff_mem (addresses_nodup_of_wf h)]

theorem snapshotOf_inWordRange {m : Memory} {p : Int × Int} (h : p ∈ snapshotOf m) : inWordRange p.1 ∧ inWordRange p.2 := by
  obtain ⟨q, -, rfl⟩ := List.mem_map.1 h
  exact ⟨word_toInt_inWordRange q.1, word_toInt_inWordRange q.2⟩

/-- Settles O41: a machine that has stopped without a fatal stop reports its contents, and no other machine reports. -/
theorem finalReportIsTheState : Obligations.FinalReportIsTheState := by
  unfold Obligations.FinalReportIsTheState
  refine fun s => ⟨fun hstop hfatal hmem => ?_, finalReport_of_canStep, finalReport_of_fatal⟩
  exact ⟨contentsOf s, finalReport_of_stopped hstop hfatal, contentsOf_registers_length s, contentsOf_registers_getElem? s,
    snapshotOf_ascending hmem, mem_snapshotOf_iff_lookup hmem, fun _ => snapshotOf_inWordRange⟩

/-! ## R191: a missing source -/

/-- What a launch answers for accepted input: the other direction of `launch_ok_cases`. -/
theorem launch_of_accepted {program : Option (List Slot)} {image : Option MemoryImage} {mem0 : Memory}
    (hmem : sourceMemory image = .ok mem0) (hlen : (program.getD []).length ≤ Config.progLenMax) :
    launch program image = .ok ⟨bootState (program.getD []) mem0,
      missingNotice .program program ++ missingNotice .memory image⟩ := by
  simp only [launch, hmem, if_pos hlen]

/-- With an empty program the first pc, 0, is past the end. -/
theorem step_bootState_nil (mem0 : Memory) : step (bootState [] mem0) = .fault .pcPastEnd :=
  step_of_pc_outside rfl rfl (.inr le_rfl)

/-- Settles O4: a missing source is accepted as empty input, and each gives its own notice. -/
theorem missingSourceIsEmptyInput : Obligations.MissingSourceIsEmptyInput := by
  unfold Obligations.MissingSourceIsEmptyInput
  refine ⟨⟨_, launch_of_accepted rfl (Nat.zero_le _), .refl _⟩, ?_, ?_, step_bootState_nil, fun _ a => ?_⟩
  · exact fun program hlen => launch_of_accepted (program := some program) rfl hlen
  · exact fun image mem0 hmem => launch_of_accepted (image := some image) hmem (Nat.zero_le _)
  · exact read_of_unset (lookup_nil a)

end Sys2Proof.Machine

/-! PROOFS. 70_reset_and_hazards.md: the four stop reasons (R240). -/

namespace Sys2Proof.Machine

/-! ## R240: the reason of a stop is the reason of the failed fetch -/

theorem fetch_haltInstr_iff (s : State) : fetch s = .error .haltInstr ↔ s.fatal = none ∧ s.running = false := by
  simp [fetch_error_iff]

theorem fetch_pcPastEnd_iff (s : State) :
    fetch s = .error .pcPastEnd ↔ s.fatal = none ∧ s.running = true ∧ progLen s ≤ s.pc := by
  simp [fetch_error_iff]

theorem fetch_pcBelowZero_iff (s : State) :
    fetch s = .error .pcBelowZero ↔ s.fatal = none ∧ s.running = true ∧ s.pc < 0 := by
  simp [fetch_error_iff]

theorem fetch_fatal_iff (s : State) (info : InvalidInfo) : fetch s = .error (.fatal info) ↔ s.fatal = some info := by
  simp [fetch_error_iff]

theorem not_canStep_of_step_fault {s : State} {f : Fault} (h : step s = .fault f) : ¬ canStep s := by
  intro hs
  obtain ⟨t, ht⟩ := exists_step_next_of_canStep hs
  simp [ht] at h

/-- The arm of a fetched entry completes, so only the fetch can stop a step. -/
theorem step_fault_iff (s : State) (f : Fault) : step s = .fault f ↔ fetch s = .error f := by
  refine ⟨fun h => ?_, step_of_stopped⟩
  cases hf : fetch s with
  | error g => simpa [step_of_stopped hf] using h
  | ok e => exact absurd ((fetch_ok_iff s e).1 hf).1 (not_canStep_of_step_fault h)

/-- HaltInstr needs `running` clear and PcPastEnd needs it set, so a pc past the end is final whatever `running` is. -/
theorem isFinal_iff (s : State) : isFinal s ↔ s.fatal = none ∧ (s.running = false ∨ progLen s ≤ s.pc) := by
  rw [isFinal, stopReason_eq_some_iff, stopReason_eq_some_iff, fetch_haltInstr_iff, fetch_pcPastEnd_iff]
  cases s.running with
  | false => simp
  | true => simp

/-! ## R240: a run ends exactly at a stopped state -/

theorem runSteps_succ_of_step_next {s t : State} (h : step s = .next t) (n : Nat) : runSteps (n + 1) s = runSteps n t := by
  rw [runSteps_succ, h]

/-- A run that has reached `t` goes on with the step of `t`. -/
theorem runSteps_succ_of_runSteps_next {n : Nat} {s t : State} (h : runSteps n s = .next t) :
    runSteps (n + 1) s = step t := by
  induction n generalizing s with
  | zero =>
    obtain rfl : s = t := Host.Outcome.next.inj h
    rw [runSteps_succ]
    cases step s <;> rfl
  | succ n ih =>
    rw [runSteps_succ] at h
    cases hs : step s with
    | next u =>
      rw [hs] at h
      exact (runSteps_succ_of_step_next hs (n + 1)).trans (ih h)
    | fault f => simp [hs] at h
    | refused r => simp [hs] at h

theorem exists_stopped_of_runSteps_fault {n : Nat} {s : State} {f : Fault} (h : runSteps n s = .fault f) :
    ∃ m t, runSteps m s = .next t ∧ ¬ canStep t := by
  induction n generalizing s with
  | zero => cases h
  | succ n ih =>
    cases hs : step s with
    | next u =>
      rw [runSteps_succ_of_step_next hs] at h
      obtain ⟨m, t, hm, ht⟩ := ih h
      exact ⟨m + 1, t, (runSteps_succ_of_step_next hs m).trans hm, ht⟩
    | fault g => exact ⟨0, s, runSteps_zero s, not_canStep_of_step_fault hs⟩
    | refused r => exact absurd hs (step_ne_refused s r)

theorem exists_runSteps_fault_iff (s : State) :
    (∃ n f, runSteps n s = .fault f) ↔ ∃ n t, runSteps n s = .next t ∧ ¬ canStep t := by
  constructor
  · rintro ⟨n, f, h⟩
    exact exists_stopped_of_runSteps_fault h
  · rintro ⟨n, t, hn, ht⟩
    obtain ⟨f, hf, -⟩ := exists_stopReason_of_not_canStep ht
    exact ⟨n + 1, f, (runSteps_succ_of_runSteps_next hn).trans hf⟩

/-- Settles O18: a step stops for the reason its fetch fails for, and a run for the reason of the stopped state it reaches. -/
theorem fourStopReasons : Obligations.FourStopReasons := by
  unfold Obligations.FourStopReasons
  intro s
  exact ⟨(step_fault_iff s _).trans (fetch_haltInstr_iff s), (step_fault_iff s _).trans (fetch_pcPastEnd_iff s),
    (step_fault_iff s _).trans (fetch_pcBelowZero_iff s), fun info => (step_fault_iff s _).trans (fetch_fatal_iff s info),
    exists_stopReason_of_not_canStep, isFinal_iff s, exists_runSteps_fault_iff s⟩

end Sys2Proof.Machine

/-! PROOFS. 30_encoding.md: the round trip of the word level (R107). -/

namespace Sys2Proof.Machine

/-! ## R107: decoding an encoding -/

theorem opInRange_iff (lo hi : Nat) (op : BitVec 8) : opInRange lo hi op = true ↔ lo ≤ op.toNat ∧ op.toNat ≤ hi :=
  decide_eq_true_iff

theorem wordDecode_packWord_of_no_opcode {op : BitVec 8} (h : opcodeOfNumber op = none) (a b c : BitVec 5) (imm : Word) :
    wordDecode (packWord op a b c imm) = .instr (unknownRow op) := by
  rw [wordDecode_of_no_opcode] <;> rw [opField_packWord]
  exact h

/-- A well-formed instruction of an unknown row is encoded by a number that is no opcode's and falls in that row. -/
theorem exists_number_of_unknown {i : Instr} (hcore : isCore i = false) (hwf : wellFormed i = true) :
    ∃ op, encode i = packWord op 0 0 0 0 ∧ opcodeOfNumber op = none ∧ unknownRow op = i := by
  cases i with
  | add | sub | addi | lw | sw | slt | bne | j | jal | cache | halt => cases hcore
  | unknown00 => exact ⟨0, rfl, rfl, rfl⟩
  | unknown0C0F op | unknown101F op | unknown203F op | unknown407F op | unknown80FF op =>
    obtain ⟨hlo, hhi⟩ := (opInRange_iff ..).1 hwf
    refine ⟨op, rfl, (opcodeOfNumber_eq_none_iff op).2 (.inr (by omega)), ?_⟩
    simp (disch := omega) only [unknownRow, if_neg, if_pos]

/-- Settles O5: the eleven by their formats, an unknown row by the number it is encoded with. -/
theorem decodeOfEncode : Obligations.DecodeOfEncode := by
  unfold Obligations.DecodeOfEncode
  intro i hwf
  cases hcore : isCore i with
  | true => exact wordDecode_encode_of_isCore hcore
  | false =>
    obtain ⟨op, henc, hnone, rfl⟩ := exists_number_of_unknown hcore hwf
    rw [henc, wordDecode_packWord_of_no_opcode hnone]

/-! ## R107: encoding a decoding -/

/-- A word whose `z` is zero is packed from its other fields (R100). -/
theorem packWord_of_fields {w : InstrWord} (hz : zField w = 0) :
    packWord (opField w) (aField w) (bField w) (cField w) (immField w) = w := by
  rw [word_eq_iff_fields]
  simp [hz]

/-- A format's decoder gives an instruction only under the format's condition. -/
theorem eq_of_ite_eq_instr {P : Prop} [Decidable P] {i k : Instr} (h : (if P then .instr k else .invalid .mbz) = Decoded.instr i) :
    P ∧ k = i := by
  split at h
  case isTrue hP => exact ⟨hP, Decoded.instr.inj h⟩
  case isFalse => cases h

theorem encode_of_wordOperands {o : Opcode} {w : InstrWord} {i : Instr} (h : wordOperands o w = .instr i) :
    zField w = 0 ∧ encode i = packWord (opcodeNumber o) (aField w) (bField w) (cField w) (immField w) := by
  cases o with
  | add | sub | slt =>
    obtain ⟨⟨hz, himm⟩, rfl⟩ := eq_of_ite_eq_instr h
    exact ⟨hz, by rw [himm]; rfl⟩
  | addi | lw | sw | bne =>
    obtain ⟨⟨hz, hc⟩, rfl⟩ := eq_of_ite_eq_instr h
    exact ⟨hz, by rw [hc]; rfl⟩
  | j | jal | cache =>
    obtain ⟨⟨hz, ha, hb, hc⟩, rfl⟩ := eq_of_ite_eq_instr h
    exact ⟨hz, by rw [ha, hb, hc]; rfl⟩
  | halt =>
    obtain ⟨⟨hz, ha, hb, hc, himm⟩, rfl⟩ := eq_of_ite_eq_instr h
    exact ⟨hz, by rw [ha, hb, hc, himm]; rfl⟩

theorem wellFormed_of_isCore {i : Instr} (h : isCore i = true) : wellFormed i = true := by
  cases i with
  | unknown00 | unknown0C0F | unknown101F | unknown203F | unknown407F | unknown80FF => cases h
  | add | sub | addi | lw | sw | slt | bne | j | jal | cache | halt => rfl

theorem wellFormed_unknownRow {op : BitVec 8} (h : opcodeOfNumber op = none) : wellFormed (unknownRow op) = true := by
  have hop := (opcodeOfNumber_eq_none_iff op).1 h
  have hlt := op.isLt
  unfold unknownRow
  split_ifs
  · rfl
  all_goals exact (opInRange_iff ..).2 (by omega)

/-- Settles O6: a word that is one of the eleven has nothing but its opcode's number and the operands' fields in it; the row of an
unknown number is the one whose range the number is in. -/
theorem encodeOfDecode : Obligations.EncodeOfDecode := by
  unfold Obligations.EncodeOfDecode
  refine ⟨fun w i h hcore => ?_, fun w i h => ?_⟩
  · cases ho : opcodeOfNumber (opField w) with
    | none =>
      cases (wordDecode_of_no_opcode ho).symm.trans h
      rw [isCore_unknownRow] at hcore
      cases hcore
    | some o =>
      obtain ⟨hz, henc⟩ := encode_of_wordOperands ((wordDecode_of_opcode ho).symm.trans h)
      rw [henc, ← (opcodeOfNumber_eq_some_iff _ _).1 ho, packWord_of_fields hz]
  · cases ho : opcodeOfNumber (opField w) with
    | none =>
      cases (wordDecode_of_no_opcode ho).symm.trans h
      exact wellFormed_unknownRow ho
    | some o =>
      obtain ⟨-, hi⟩ := not_mbzViolated_of_wordDecode ho h
      exact wellFormed_of_isCore (isCore_of_opcodeOf hi)

/-- Settles O9: the ten words of the test vectors, evaluated. -/
theorem writtenOutWordsDecode : Obligations.WrittenOutWordsDecode := by
  unfold Obligations.WrittenOutWordsDecode
  decide

end Sys2Proof.Machine

/-! PROOFS. 10_state.md, 60_exceptions.md and 70_reset_and_hazards.md: the arm a step runs (R122), the fatal stop (R206, R207), and
what holds of every state of a run (R22, R30, R35, R241). -/

namespace Sys2Proof.Machine

/-! ## R122, R206: a step is the arm of the entry at the pc -/

/-- Settles O16: each arm is its own definition. -/
theorem stepRunsDecodedEntry : Obligations.StepRunsDecodedEntry := by
  unfold Obligations.StepRunsDecodedEntry
  intro s e hs he
  rw [step_of_slotAtPc hs he]
  refine ⟨fun i hd => ?_, fun tag hd => ?_, fun info hd => ?_⟩
  all_goals
    rw [hd]
    rfl

theorem step_of_atPc {s : State} {d : Decoded} (hs : canStep s) (hat : atPc s d) : step s = execDecoded d s := by
  obtain ⟨e, he, rfl⟩ := hat
  exact step_of_slotAtPc hs he

/-- Settles O19: the arm of an invalid entry only sets `fatal`, which stops the next fetch and withholds the report. -/
theorem invalidOperandIsPreciseAndEndsTheRun : Obligations.InvalidOperandIsPreciseAndEndsTheRun := by
  unfold Obligations.InvalidOperandIsPreciseAndEndsTheRun
  intro s info hs hat
  have hstop : step (raiseInvalidOperand info s) = .fault (.fatal info) :=
    step_of_stopped ((fetch_fatal_iff _ info).2 rfl)
  exact ⟨raiseInvalidOperand info s, step_of_atPc hs hat, fun _ => rfl, fun _ => ⟨rfl, rfl⟩, rfl, rfl, rfl, rfl, rfl, hstop,
    finalReport_of_fatal nofun⟩

/-! ## R22: the pc a step leaves -/

/-- The pcs a step may leave: the same, the next, a branch's by an offset, a jump's target (R23). -/
def IsNextPc (s : State) (z : Int) : Prop :=
  z = s.pc ∨ z = s.pc + 1 ∨ (∃ v : Word, z = s.pc + 1 + v.toInt) ∨ ∃ v : Word, z = v.toInt

theorem effect_isNextPc (i : Instr) (s : State) : IsNextPc s (effect i s).pc := by
  cases i with
  | bne rs rt offset =>
    rw [bne_pc]
    split
    · exact .inr (.inr (.inl ⟨offset, rfl⟩))
    · exact .inr (.inl rfl)
  | j target | jal target => exact .inr (.inr (.inr ⟨target, rfl⟩))
  | halt => exact .inl (Int.add_zero s.pc)
  | cache code => exact .inr (.inl (by simp))
  | add | sub | addi | slt | lw | sw => exact .inr (.inl rfl)
  | unknown00 | unknown0C0F | unknown101F | unknown203F | unknown407F | unknown80FF => exact .inr (.inl rfl)

theorem step_isNextPc {s t : State} (h : step s = .next t) : IsNextPc s t.pc := by
  obtain ⟨e, -, ⟨i, -, hx⟩ | ⟨tag, -, rfl⟩ | ⟨info, -, rfl⟩⟩ := step_next_cases h
  · obtain rfl := (exec_next_iff i s t).1 hx
    exact effect_isNextPc i s
  · exact .inr (.inl rfl)
  · exact .inl rfl

/-- The pc of a state in which a step exists is an index of the program, so a word added to it, and 1, stays in 33 signed bits. -/
theorem pcRange_of_isNextPc {s : State} {z : Int} (hlen : s.program.length ≤ Config.progLenMax) (hs : canStep s)
    (hz : IsNextPc s z) : -2147483648 ≤ z ∧ z ≤ 4294967294 := by
  obtain ⟨-, -, hlo, hhi⟩ := hs
  unfold progLen at hhi
  unfold Config.progLenMax at hlen
  obtain rfl | rfl | ⟨v, rfl⟩ | ⟨v, rfl⟩ := hz
  · omega
  · omega
  · obtain ⟨hvlo, hvhi⟩ := word_toInt_inWordRange v
    omega
  · obtain ⟨hvlo, hvhi⟩ := word_toInt_inWordRange v
    omega

/-! ## R241: the parts of the invariant -/

theorem step_keeps_memWf {s t : State} (hwf : Memory.wf s.mem = true) (h : step s = .next t) : Memory.wf t.mem = true := by
  obtain hm | ⟨rt, rs, offset, -, hm⟩ := step_mem_cases h
  · rwa [hm]
  · rw [hm]
    exact write_wf _ _ _ hwf

theorem step_keeps_inRange {s t : State} (hs : InRange s) (h : step s = .next t) : InRange t := by
  obtain ⟨hwf, hlen, -⟩ := hs
  exact ⟨step_keeps_memWf hwf h, (step_program h).symm ▸ hlen,
    pcRange_of_isNextPc hlen (canStep_of_step_next h) (step_isNextPc h)⟩

/-- The entry at the pc is decided by the pc and the program. -/
theorem atPc_congr {s t : State} {d : Decoded} (hpc : t.pc = s.pc) (hprogram : t.program = s.program) (h : atPc s d) :
    atPc t d := by
  unfold atPc slotAtPc at *
  rwa [hpc, hprogram]

/-- A step begins without a fatal stop, so one it leaves is the malformed entry's, whose step keeps the pc. -/
theorem fatalAtCulprit_of_step {s t : State} (h : step s = .next t) : FatalAtCulprit t := by
  obtain ⟨hfatal, hrunning, -⟩ := canStep_of_step_next h
  intro info hinfo
  obtain ⟨e, hf, ⟨i, -, hx⟩ | ⟨tag, -, rfl⟩ | ⟨info', hd, rfl⟩⟩ := step_next_cases h
  · cases ((exec_program_fatal hx).2.trans hfatal).symm.trans hinfo
  · cases hfatal.symm.trans hinfo
  · cases hinfo
    exact ⟨hrunning, atPc_congr (s := s) rfl rfl (atPc_of_fetch hf hd)⟩

/-- A step begins with `running` set, so one that leaves it clear is HALT's, which keeps the pc (decision D8). -/
theorem haltedAtHalt_of_step {s t : State} (h : step s = .next t) : HaltedAtHalt t := by
  obtain ⟨hfatal, hrunning, -⟩ := canStep_of_step_next h
  intro hstopped
  obtain ⟨e, hf, ⟨i, hd, hx⟩ | ⟨tag, -, rfl⟩ | ⟨info, -, rfl⟩⟩ := step_next_cases h
  · obtain rfl := (exec_next_iff i s t).1 hx
    obtain rfl : i = .halt := by
      by_contra hi
      cases hrunning.symm.trans ((effect_running_of_ne_halt s hi).symm.trans hstopped)
    rw [effect_halt]
    exact ⟨hfatal, atPc_congr (s := s) rfl rfl (atPc_of_fetch hf hd)⟩
  · cases hrunning.symm.trans hstopped
  · cases hrunning.symm.trans hstopped

/-- Settles O51: the ranges are kept; what is said of fatal and of halted states holds after any step at all. -/
theorem stepKeepsInvariant : Obligations.StepKeepsInvariant := by
  unfold Obligations.StepKeepsInvariant
  rintro s t ⟨hrange, -, -⟩ h
  exact ⟨step_keeps_inRange hrange h, fatalAtCulprit_of_step h, haltedAtHalt_of_step h⟩

/-! ## The invariant at reset, after a launch, and along a run -/

theorem runInv_bootState {program : List Slot} {mem0 : Memory} (hlen : program.length ≤ Config.progLenMax)
    (hwf : Memory.wf mem0 = true) : RunInv (bootState program mem0) := by
  refine ⟨⟨hwf, hlen, ?_⟩, nofun, nofun⟩
  simp

/-- An accepted image is a load of words (R182). -/
theorem exists_load_of_imageMemory {image : MemoryImage} {mem0 : Memory} (h : imageMemory image = .ok mem0) :
    ∃ ws, mem0 = Memory.load ws := by
  cases image with
  | ordered pairs =>
    rw [imageMemory] at h
    split at h
    · exact ⟨_, (Except.ok.inj h).symm⟩
    · cases h
  | unordered pairs =>
    rw [imageMemory] at h
    split at h
    · split at h
      · exact ⟨_, (Except.ok.inj h).symm⟩
      · cases h
    · cases h

theorem sourceMemory_wf {image : Option MemoryImage} {mem0 : Memory} (h : sourceMemory image = .ok mem0) :
    Memory.wf mem0 = true := by
  cases image with
  | none => cases h; rfl
  | some image =>
    obtain ⟨ws, rfl⟩ := exists_load_of_imageMemory h
    exact load_wf ws

theorem runInv_of_launch {program : Option (List Slot)} {image : Option MemoryImage} {l : Launched}
    (h : launch program image = .ok l) : RunInv l.state := by
  obtain ⟨mem0, hmem, hlen, hstate, -⟩ := launch_ok_cases h
  rw [hstate]
  exact runInv_bootState hlen (sourceMemory_wf hmem)

/-- Settles O50: `State.reset` and each launch are boot states with a bounded program and a canonical memory. -/
theorem launchEstablishesInvariant : Obligations.LaunchEstablishesInvariant := by
  unfold Obligations.LaunchEstablishesInvariant
  exact ⟨runInv_bootState (program := []) (mem0 := []) (Nat.zero_le _) rfl, fun _ _ _ => runInv_of_launch⟩

/-- What every step keeps holds of every state a run reaches. -/
theorem runSteps_induct {P : State → Prop} (hstep : ∀ s t, P s → step s = .next t → P t) {n : Nat} {s t : State} (hs : P s)
    (h : runSteps n s = .next t) : P t := by
  induction n generalizing s with
  | zero =>
    cases h
    exact hs
  | succ n ih =>
    rw [runSteps_succ] at h
    cases hst : step s with
    | next u =>
      rw [hst] at h
      exact ih (hstep s u hs hst) h
    | fault f => simp [hst] at h
    | refused r => simp [hst] at h

theorem runSteps_ne_refused (n : Nat) (s : State) (r : Refusal) : runSteps n s ≠ .refused r := by
  induction n generalizing s with
  | zero => nofun
  | succ n ih =>
    rw [runSteps_succ]
    cases hst : step s with
    | next u => exact ih u
    | fault f => nofun
    | refused r' => exact absurd hst (step_ne_refused s r')

/-- Settles O52: the invariant holds at the launch and every step keeps it; no step is refused. -/
theorem everyRunKeepsInvariant : Obligations.EveryRunKeepsInvariant := by
  unfold Obligations.EveryRunKeepsInvariant
  intro program image l n hl
  exact ⟨fun t => runSteps_induct stepKeepsInvariant (runInv_of_launch hl), runSteps_ne_refused n l.state⟩

end Sys2Proof.Machine

/-! PROOFS. 30_encoding.md: how the two levels are related (R109). -/

namespace Sys2Proof.Machine

/-! ## R109: what one step makes of entries of the same meaning -/

theorem effect_withFatal (i : Instr) (s : State) (f : Option InvalidInfo) :
    effect i { s with fatal := f } = { effect i s with fatal := f } := by
  cases i with
  | bne rs rt offset => rw [effect_bne, effect_bne]; rfl
  | cache code =>
    simp only [effect]
    cases cacheDirective code <;> rfl
  | add | sub | addi | slt | lw | sw | j | jal | halt => rfl
  | unknown00 | unknown0C0F | unknown101F | unknown203F | unknown407F | unknown80FF => rfl

/-- The entries of two programs correspond, index by index. -/
def SameMeanings (p q : List Slot) : Prop := List.Forall₂ (fun d e => sameMeaning (slotDecode d) (slotDecode e)) p q

theorem runsAlike_iff (s t : State) : runsAlike s t ↔ ∃ f p, t = { s with fatal := f, program := p } ∧
    s.fatal.isSome = f.isSome ∧ SameMeanings s.program p := by
  constructor
  · intro h
    obtain ⟨regs, pc, running, cacheEnabled, fatal, mem, program⟩ := s
    obtain ⟨rfl, rfl, rfl, rfl, hfatal, rfl, hprogram⟩ := h
    exact ⟨t.fatal, t.program, rfl, hfatal, hprogram⟩
  · rintro ⟨f, p, rfl, hfatal, hprogram⟩
    exact ⟨rfl, rfl, rfl, rfl, hfatal, rfl, hprogram⟩

theorem effect_runsAlike (i : Instr) {s t : State} (h : runsAlike s t) : runsAlike (effect i s) (effect i t) := by
  obtain ⟨f, p, rfl, hfatal, hprogram⟩ := (runsAlike_iff s t).1 h
  obtain ⟨hprogram', hfatal'⟩ := exec_program_fatal (exec_eq i s)
  rw [← hprogram'] at hprogram
  rw [← hfatal'] at hfatal
  refine (runsAlike_iff _ _).2 ⟨f, p, ?_, hfatal, hprogram⟩
  rw [effect_withProgram i { s with fatal := f }, effect_withFatal]

theorem skipUnknown_runsAlike {s t : State} (h : runsAlike s t) : runsAlike (skipUnknown s) (skipUnknown t) :=
  effect_runsAlike .unknown00 h

theorem raiseInvalidOperand_runsAlike {s t : State} (info info' : InvalidInfo) (h : runsAlike s t) :
    runsAlike (raiseInvalidOperand info s) (raiseInvalidOperand info' t) := by
  obtain ⟨f, p, rfl, -, hprogram⟩ := (runsAlike_iff s t).1 h
  exact (runsAlike_iff _ _).2 ⟨some info', p, rfl, rfl, hprogram⟩

/-- The decoded entry is an unknown opcode, of either level. -/
def IsUnknown : Decoded → Prop
  | .instr i => isCore i = false
  | .unknownTag _ => True
  | .invalid _ => False

theorem execDecoded_of_isUnknown {d : Decoded} (s : State) (h : IsUnknown d) : execDecoded d s = .next (skipUnknown s) := by
  cases d with
  | instr i => exact exec_of_not_isCore s h
  | unknownTag tag => rfl
  | invalid info => cases h

/-- The three ways to have the same meaning. -/
theorem sameMeaning_cases {d e : Decoded} (h : sameMeaning d e) :
    (∃ i, d = .instr i ∧ e = .instr i) ∨ (IsUnknown d ∧ IsUnknown e) ∨
    ∃ info info', d = .invalid info ∧ e = .invalid info' := by
  cases d with
  | instr i =>
    cases e with
    | instr k =>
      obtain rfl | hik := h
      · exact .inl ⟨i, rfl, rfl⟩
      · exact .inr (.inl hik)
    | unknownTag tag => exact .inr (.inl ⟨h, trivial⟩)
    | invalid info => cases h
  | unknownTag tag =>
    cases e with
    | instr k => exact .inr (.inl ⟨trivial, h⟩)
    | unknownTag tag' => exact .inr (.inl ⟨trivial, trivial⟩)
    | invalid info => cases h
  | invalid info =>
    cases e with
    | invalid info' => exact .inr (.inr ⟨info, info', rfl, rfl⟩)
    | instr k | unknownTag tag => cases h

theorem execDecoded_runsAlike {d e : Decoded} {s t : State} (hde : sameMeaning d e) (h : runsAlike s t) :
    ∃ u v, execDecoded d s = .next u ∧ execDecoded e t = .next v ∧ runsAlike u v := by
  obtain ⟨i, rfl, rfl⟩ | ⟨hd, he⟩ | ⟨info, info', rfl, rfl⟩ := sameMeaning_cases hde
  · exact ⟨_, _, exec_eq i s, exec_eq i t, effect_runsAlike i h⟩
  · exact ⟨_, _, execDecoded_of_isUnknown s hd, execDecoded_of_isUnknown t he, skipUnknown_runsAlike h⟩
  · exact ⟨_, _, rfl, rfl, raiseInvalidOperand_runsAlike info info' h⟩

theorem exists_getElem?_of_sameMeanings {p q : List Slot} {n : Nat} {d : Slot} (h : SameMeanings p q) (hd : p[n]? = some d) :
    ∃ e, q[n]? = some e ∧ sameMeaning (slotDecode d) (slotDecode e) := by
  induction h generalizing n with
  | nil => cases hd
  | cons hde _ ih =>
    cases n with
    | zero => cases hd; exact ⟨_, rfl, hde⟩
    | succ n => exact ih hd

/-- Machines that run alike fetch entries of the same meaning, or stop for the same reason but for a fatal stop's payload. -/
theorem fetch_runsAlike {s t : State} (h : runsAlike s t) :
    (∃ d e, fetch s = .ok d ∧ fetch t = .ok e ∧ sameMeaning (slotDecode d) (slotDecode e)) ∨
    (∃ info info', fetch s = .error (.fatal info) ∧ fetch t = .error (.fatal info')) ∨
    ∃ f, fetch s = .error f ∧ fetch t = .error f := by
  obtain ⟨f, p, rfl, hfatal, hprogram⟩ := (runsAlike_iff s t).1 h
  have hlen : progLen { s with fatal := f, program := p } = progLen s := congrArg Nat.cast hprogram.length_eq.symm
  cases hs : s.fatal with
  | some info =>
    obtain ⟨info', rfl⟩ := Option.isSome_iff_exists.1 (hfatal.symm.trans (congrArg Option.isSome hs))
    exact .inr (.inl ⟨info, info', (fetch_fatal_iff s info).2 hs, (fetch_fatal_iff _ info').2 rfl⟩)
  | none =>
    obtain rfl : f = none := Option.isNone_iff_eq_none.1 (by simpa [hs] using hfatal)
    cases hf : fetch s with
    | ok d =>
      obtain ⟨⟨-, hrunning, hlo, hhi⟩, hd⟩ := (fetch_ok_iff s d).1 hf
      obtain ⟨e, he, hde⟩ := exists_getElem?_of_sameMeanings hprogram hd
      exact .inl ⟨d, e, rfl, (fetch_ok_iff _ e).2 ⟨⟨rfl, hrunning, hlo, hlen.symm ▸ hhi⟩, he⟩, hde⟩
    | error g =>
      refine .inr (.inr ⟨g, rfl, ?_⟩)
      rw [fetch_error_iff, hs] at hf
      rwa [fetch_error_iff, hlen]

/-- Settles O53: what is fetched has the same meaning, and every arm keeps the relation. -/
theorem runsAlikeStaysAlike : Obligations.RunsAlikeStaysAlike := by
  unfold Obligations.RunsAlikeStaysAlike
  intro s t h
  obtain ⟨d, e, hs, ht, hde⟩ | ⟨info, info', hs, ht⟩ | ⟨f, hs, ht⟩ := fetch_runsAlike h
  · obtain ⟨u, v, hu, hv, huv⟩ := execDecoded_runsAlike hde h
    rw [step_of_fetch hs, step_of_fetch ht, hu, hv]
    exact huv
  · rw [step_of_stopped hs, step_of_stopped ht]
    trivial
  · rw [step_of_stopped hs, step_of_stopped ht]
    cases f with
    | fatal info => trivial
    | haltInstr | pcPastEnd | pcBelowZero => rfl

/-! ## R109: the word that stands for a record -/

/-- A record never decodes to an unknown row of the word level. -/
theorem isCore_of_recordDecode {r : Record} {i : Instr} (h : recordDecode r = .instr i) : isCore i = true := by
  cases ho : opcodeOfTag r.opcode with
  | none => cases (recordDecode_of_opcodeOfTag_none ho).symm.trans h
  | some o =>
    by_cases hlen : r.operands.length = (operandKinds o).length
    · have hans := recordOperands_answers hlen
      unfold AnswersTokens at hans
      split at hans
      · cases (recordDecode_of_operands_error ho hans).symm.trans h
      · obtain ⟨k, hk, hko, -⟩ := hans
        cases (recordDecode_of_operands_ok ho hk).symm.trans h
        exact isCore_of_opcodeOf hko
    · cases (recordDecode_of_operands_error ho (recordOperands_arity hlen)).symm.trans h

theorem sameMeaning_refl (d : Decoded) : sameMeaning d d := by
  cases d with
  | instr i => exact .inl rfl
  | unknownTag tag => trivial
  | invalid info => trivial

theorem assemble_of_instr {r : Record} {i : Instr} (h : recordDecode r = .instr i) : assemble (.record r) = encode i := by
  simp [assemble, h]

theorem assemble_of_unknownTag {r : Record} {tag : Token} (h : recordDecode r = .unknownTag tag) :
    assemble (.record r) = 0 := by
  simp [assemble, h]

theorem assemble_of_invalid {r : Record} {info : InvalidInfo} (h : recordDecode r = .invalid info) :
    assemble (.record r) = invalidWord := by
  simp [assemble, h]

theorem wordDecode_zero : wordDecode 0 = .instr .unknown00 := by decide

theorem wordDecode_invalidWord : wordDecode invalidWord = .invalid .mbz := by decide

theorem sameMeaning_assemble (e : Slot) : sameMeaning (slotDecode e) (slotDecode (.word (assemble e))) := by
  cases e with
  | word w => exact sameMeaning_refl _
  | record r =>
    rw [slotDecode, slotDecode]
    cases hd : recordDecode r with
    | instr i =>
      rw [assemble_of_instr hd, wordDecode_encode_of_isCore (isCore_of_recordDecode hd)]
      exact sameMeaning_refl _
    | unknownTag tag =>
      rw [assemble_of_unknownTag hd, wordDecode_zero]
      rfl
    | invalid info =>
      rw [assemble_of_invalid hd, wordDecode_invalidWord]
      trivial

/-- Settles O54: entry by entry, the word assembled from a record has the record's meaning. -/
theorem assembledProgramRunsAlike : Obligations.AssembledProgramRunsAlike := by
  unfold Obligations.AssembledProgramRunsAlike
  intro s
  refine (runsAlike_iff _ _).2 ⟨s.fatal, _, rfl, rfl, ?_⟩
  exact List.forall₂_map_right_iff.2 (List.forall₂_same.2 fun e _ => sameMeaning_assemble e)

end Sys2Proof.Machine

/-! PROOFS. 20_memory.md and 47_host_interfaces.md: the canonical form of a memory (R51), and what a launch answers or refuses (R55,
R181, R182). -/

namespace Sys2Proof.Machine

/-! ## R51: a canonical memory is what its addresses hold -/

/-- The entries of a canonical memory ascend by their addresses. -/
theorem pairwise_of_wf {m : Memory} (h : Memory.wf m = true) :
    m.Pairwise (InvImage (· < ·) fun p : Word × Word => p.1.toInt) := by
  have hasc := snapshotOf_ascending h
  rw [snapshotOf, List.map_map, List.pairwise_map] at hasc
  exact hasc

theorem mem_iff_lookup {m : Memory} (h : Memory.wf m = true) (p : Word × Word) : p ∈ m ↔ Memory.lookup m p.1 = some p.2 := by
  rw [memory_lookup_eq_list_lookup, lookup_eq_some_iff_mem (addresses_nodup_of_wf h)]

theorem eq_of_lookup_eq {m n : Memory} (hm : Memory.wf m = true) (hn : Memory.wf n = true)
    (h : ∀ a, Memory.lookup m a = Memory.lookup n a) : m = n := by
  refine (pairwise_of_wf hm).eq_of_mem_iff (pairwise_of_wf hn) fun p => ?_
  rw [mem_iff_lookup hm, mem_iff_lookup hn, h]

/-- Settles O40: two ascending lists with the same entries are one list; a write inserts at its place, and a load is writes. -/
theorem canonicalMemoriesAreEqual : Obligations.CanonicalMemoriesAreEqual := by
  unfold Obligations.CanonicalMemoriesAreEqual
  exact ⟨fun _ _ => eq_of_lookup_eq, write_wf, load_wf⟩

/-! ## R55, R182: the words of an image -/

/-- The pair of words that a pair of integers in the word range is. -/
def wordPair (p : Int × Int) : Word × Word := (wrap32 p.1, wrap32 p.2)

theorem wordOfInt_of_inWordRange {v : Int} (h : inWordRange v) : wordOfInt v = some (wrap32 v) := if_pos h

theorem wordOfInt_of_not_inWordRange {v : Int} (h : ¬ inWordRange v) : wordOfInt v = none := if_neg h

theorem imageWords_of_inWordRange {pairs : List (Int × Int)} (h : ∀ p ∈ pairs, inWordRange p.1 ∧ inWordRange p.2) :
    imageWords pairs = some (pairs.map wordPair) := by
  induction pairs with
  | nil => rfl
  | cons p ps ih =>
    obtain ⟨⟨ha, hv⟩, hps⟩ := List.forall_mem_cons.1 h
    simp [imageWords, wordOfInt_of_inWordRange ha, wordOfInt_of_inWordRange hv, ih hps, wordPair]

theorem imageWords_of_not_inWordRange {pairs : List (Int × Int)}
    (h : ∃ p ∈ pairs, ¬ inWordRange p.1 ∨ ¬ inWordRange p.2) : imageWords pairs = none := by
  induction pairs with
  | nil => simp at h
  | cons p ps ih =>
    simp only [List.mem_cons, exists_eq_or_imp] at h
    obtain (hp | hp) | hps := h
    · simp [imageWords, wordOfInt_of_not_inWordRange hp]
    · simp [imageWords, wordOfInt_of_not_inWordRange hp]
    · simp [imageWords, ih hps]

theorem addressesDistinct_iff (ws : List (Word × Word)) : addressesDistinct ws = true ↔ (ws.map Prod.fst).Nodup := by
  induction ws with
  | nil => simp [addressesDistinct]
  | cons w ws ih =>
    have hany : (ws.any fun p => p.1 == w.1) = true ↔ w.1 ∈ ws.map Prod.fst := by simp
    rw [addressesDistinct, Bool.and_eq_true, Bool.not_eq_true', ← Bool.not_eq_true, hany, ih, List.map_cons, List.nodup_cons]

theorem map_fst_wordPair (pairs : List (Int × Int)) :
    (pairs.map wordPair).map Prod.fst = (pairs.map fun p => p.1).map wrap32 := by
  simp [wordPair, Function.comp_def]

/-- In a memory loaded from words, an address holds the value of its last pair (R55). -/
theorem lookup_load_wordPair {pairs : List (Int × Int)} (h : ∀ p ∈ pairs, inWordRange p.1 ∧ inWordRange p.2) (a : Word) :
    (Memory.lookup (Memory.load (pairs.map wordPair)) a).map BitVec.toInt =
      (pairs.reverse.find? fun p => p.1 == a.toInt).map fun p => p.2 := by
  induction pairs using List.reverseRecOn with
  | nil => rfl
  | append_singleton ps p ih =>
    have hps := ih fun q hq => h q (List.mem_append_left _ hq)
    obtain ⟨ha, hv⟩ := h p (List.mem_append_right _ List.mem_cons_self)
    have haddress : a = wrap32 p.1 ↔ p.1 = a.toInt := by
      rw [← BitVec.toInt_inj, wrap32_toInt_of_inWordRange ha, eq_comm]
    rw [List.map_append, List.map_singleton, wordPair, load_append_one, lookup_write, List.reverse_append,
      List.reverse_singleton, List.singleton_append]
    by_cases hp : p.1 = a.toInt
    · rw [if_pos (haddress.2 hp), List.find?_cons_of_pos (by simpa using hp), Option.map_some, Option.map_some,
        wrap32_toInt_of_inWordRange hv]
    · rw [if_neg (mt haddress.1 hp), List.find?_cons_of_neg (by simpa using hp), hps]

theorem imageMemory_ordered_of_inWordRange {pairs : List (Int × Int)} (h : ∀ p ∈ pairs, inWordRange p.1 ∧ inWordRange p.2) :
    imageMemory (.ordered pairs) = .ok (Memory.load (pairs.map wordPair)) := by
  simp [imageMemory, imageWords_of_inWordRange h]

/-- Settles O2: the image is accepted as the list of its words, whose load keeps the last pair of each address. -/
theorem launchLoadsLastPair : Obligations.LaunchLoadsLastPair := by
  unfold Obligations.LaunchLoadsLastPair
  intro program pairs hlen hpairs
  exact ⟨_, launch_of_accepted (program := some program) (image := some (.ordered pairs))
    (imageMemory_ordered_of_inWordRange hpairs) hlen, load_wf _, lookup_load_wordPair hpairs⟩

/-! ## R55, R181: what a launch refuses -/

theorem launch_of_refused {image : Option MemoryImage} {r : LaunchRefusal} (program : Option (List Slot))
    (h : sourceMemory image = .error r) : launch program image = .error r := by
  simp [launch, h]

theorem launch_of_tooLong {program : Option (List Slot)} {image : Option MemoryImage} {mem0 : Memory}
    (hmem : sourceMemory image = .ok mem0) (hlen : Config.progLenMax < (program.getD []).length) :
    launch program image = .error .programTooLong := by
  simp only [launch, hmem, if_neg (Nat.not_le.2 hlen)]

/-- Settles O3: each fault of the image is found before the program's length is looked at. -/
theorem launchRefusesBadInput : Obligations.LaunchRefusesBadInput := by
  unfold Obligations.LaunchRefusesBadInput
  refine ⟨fun program pairs hbad => ?_, fun program pairs hpairs hrepeat => ?_, fun program image mem0 hmem hlen => ?_⟩
  · have hnone := imageWords_of_not_inWordRange hbad
    constructor
    all_goals exact launch_of_refused program (by simp [sourceMemory, imageMemory, hnone])
  · have hrepeat' : ¬ addressesDistinct (pairs.map wordPair) = true := by
      rw [addressesDistinct_iff, map_fst_wordPair]
      exact mt (List.Nodup.of_map wrap32) hrepeat
    exact launch_of_refused program (by simp [sourceMemory, imageMemory, imageWords_of_inWordRange hpairs, hrepeat'])
  · exact launch_of_tooLong (program := some program) hmem hlen

/-! ## R205: the notices of a launch -/

theorem missingNotice_eq {α : Type} (what : MissingSource) (source : Option α) :
    missingNotice what source = if source.isNone then [what] else [] := by
  cases source <;> rfl

/-- Settles O57: accepted input is launched, with the program's notice before the memory's (log 18). -/
theorem launchResult : Obligations.LaunchResult := by
  unfold Obligations.LaunchResult
  intro program image mem0 hmem hlen
  rw [launch_of_accepted hmem hlen, missingNotice_eq, missingNotice_eq]

end Sys2Proof.Machine

/-! PROOFS. 00_scope.md, 30_encoding.md, 40_fetch_decode_dispatch.md, 41_arithmetic_compare.md and 42_load_store.md: the laws the
spec derives from the instructions' effects (R12, R112, R124, R147, R153). -/

namespace Sys2Proof.Machine

/-! ## R124: the two phases of the pc -/

theorem effect_pc_eq_twoPhasePc (i : Instr) (s : State) : (effect i s).pc = twoPhasePc i s := by
  cases i with
  | bne rs rt offset =>
    have htwo : twoPhasePc (.bne rs rt offset) s =
        (if registersDiffer s rs rt then s.pc + literalInt offset else s.pc) + 1 := rfl
    rw [effect_bne, setPc_pc, branchTarget, htwo]
    split
    · exact Int.add_right_comm ..
    · rfl
  | j target | jal target => exact (Int.sub_add_cancel _ _).symm
  | cache code => simp [twoPhasePc, handlerPc, pcIncrement]
  | add | sub | addi | slt | lw | sw | halt => rfl
  | unknown00 | unknown0C0F | unknown101F | unknown203F | unknown407F | unknown80FF => rfl

theorem pcIncrement_cases (i : Instr) : i = .halt ∨ pcIncrement i = 1 := by
  cases i with
  | halt => exact .inl rfl
  | _ => exact .inr rfl

/-- Settles O34: the two phases add up to the pc after the step, so the handler's pc is at most one below the pcs a step may leave. -/
theorem twoPhaseDatapathAgrees : Obligations.TwoPhaseDatapathAgrees := by
  unfold Obligations.TwoPhaseDatapathAgrees
  constructor
  · intro i s t h
    obtain rfl := (exec_next_iff i s t).1 h
    exact effect_pc_eq_twoPhasePc i s
  · rintro i s ⟨-, hlen, hlo, hhi⟩ hs
    have hrange := pcRange_of_isNextPc hlen hs (effect_isNextPc i s)
    have hpc := effect_pc_eq_twoPhasePc i s
    unfold twoPhasePc at hpc
    obtain rfl | hinc := pcIncrement_cases i
    · have hindex : s.pc < s.program.length := hs.2.2.2
      unfold Config.progLenMax at hlen
      rw [handlerPc]
      omega
    · omega

/-! ## R153: a store, then a load -/

/-- Settles O43: the load's base is read after the store, which writes no register, so its address is the one just written. -/
theorem storeThenLoad : Obligations.StoreThenLoad := by
  unfold Obligations.StoreThenLoad
  intro s r1 r2 r3 offset
  refine ⟨_, _, exec_eq _ s, exec_eq _ _, ?_⟩
  have hload : loadWord (effect (.sw r2 r1 offset) s) (effectiveAddress (effect (.sw r2 r1 offset) s) r1 offset) = readReg s r2 :=
    read_write_same s.mem (effectiveAddress s r1 offset) (readReg s r2)
  exact (regInt_finishReg_same _ r3 _).trans (congrArg BitVec.toInt hload)

/-! ## R147: an addition, then a subtraction -/

theorem regInt_finishReg_other {s : State} {r q : RegIdx} {v : Word} (h : q ≠ r) : regInt (finishReg s r v) q = regInt s q :=
  finishReg_keepsRegsBut s r v q h

/-- Subtracting what was added undoes the addition, wrapped or not. -/
theorem wrap32_sub_of_wrap32_add {x : Int} (hx : inWordRange x) (y : Int) :
    (wrap32 ((wrap32 (x + y)).toInt - y)).toInt = x := by
  obtain ⟨hlo, hhi⟩ := hx
  rw [wrap32_toInt, wrap32_toInt]
  omega

theorem regInt_inWordRange (s : State) (r : RegIdx) : inWordRange (regInt s r) := word_toInt_inWordRange _

/-- Settles O44: the subtraction reads the sum in `d`, and every other register as it was. -/
theorem addThenSub : Obligations.AddThenSub := by
  unfold Obligations.AddThenSub
  refine ⟨fun s d r => ⟨_, _, exec_eq _ s, exec_eq _ _, ?_⟩, fun s d p r hp hr => ⟨_, _, exec_eq _ s, exec_eq _ _, ?_⟩⟩
  · simp only [effect, regInt_finishReg_same]
    split
    case isTrue h =>
      rw [h, regInt_finishReg_same, Int.sub_self]
      rfl
    case isFalse h =>
      rw [regInt_finishReg_other (Ne.symm h)]
      exact wrap32_sub_of_wrap32_add (regInt_inWordRange s d) _
  · simp only [effect, regInt_finishReg_same]
    rw [regInt_finishReg_other hp.symm, regInt_finishReg_other hr.symm]
    exact wrap32_toInt _

/-! ## R112: instructions without effect -/

theorem advance_eq (s : State) : advance s = { s with pc := s.pc + 1 } := rfl

theorem writeReg_readReg (s : State) (r : RegIdx) : writeReg s r (readReg s r) = s := by
  simp [writeReg, readReg, Vector.get_eq_getElem]

theorem effect_cache_of_other_code {code : Word} (s : State) (h0 : code.toInt ≠ 0) (h1 : code.toInt ≠ 1) :
    effect (.cache code) s = advance s := by
  obtain ⟨h, -⟩ | ⟨h, -⟩ | ⟨-, hd⟩ | ⟨-, hd⟩ := cacheDirective_cases code
  · exact absurd h h0
  · exact absurd h h1
  · rw [effect, hd, applyCacheDirective]
  · rw [effect, hd, applyCacheDirective]

theorem effect_addi_zero (s : State) (r : RegIdx) : effect (.addi r r 0) s = advance s := by
  have hsum : wrap32 (regInt s r + literalInt 0) = readReg s r :=
    (congrArg wrap32 (Int.add_zero _)).trans (wrap32_toInt_self _)
  rw [effect, hsum, finishReg, writeReg_readReg]

theorem effect_bne_same (s : State) (r : RegIdx) (offset : Word) : effect (.bne r r offset) s = advance s := by
  simp [registersDiffer]

theorem effect_j_next {s : State} {k : Word} (h : s.pc = k.toInt - 1) : effect (.j k) s = advance s := by
  rw [effect, advance, h, Int.sub_add_cancel]
  rfl

/-- Settles O45: each of the four arms comes down to the bare advance; ADD R0, R0, R0 writes the doubled register. -/
theorem instructionsWithoutEffect : Obligations.InstructionsWithoutEffect := by
  unfold Obligations.InstructionsWithoutEffect
  simp only [exec_next_iff, ← advance_eq]
  refine ⟨fun s code h0 h1 => (effect_cache_of_other_code s h0 h1).symm, fun s r => (effect_addi_zero s r).symm,
    fun s r k => (effect_bne_same s r k).symm, fun s k h => (effect_j_next h).symm, fun s => ⟨_, rfl, ?_⟩⟩
  rw [effect, regInt_finishReg_same, Int.two_mul]
  exact wrap32_toInt _

/-! ## R12: exact results and addresses -/

theorem effectiveAddress_exact {s : State} {rs : RegIdx} {offset : Word} (h : inWordRange (regInt s rs + literalInt offset)) :
    (effectiveAddress s rs offset).toInt = regInt s rs + offset.toInt := wrap32_toInt_of_inWordRange h

theorem regInt_finishReg_wrap32 {s : State} {r : RegIdx} {z : Int} (h : inWordRange z) :
    regInt (finishReg s r (wrap32 z)) r = z := by
  rw [regInt_finishReg_same, wrap32_toInt_of_inWordRange h]

/-- Settles O46: what NoOverflow keeps in the word range is what the arm would wrap. -/
theorem exactUnderNoOverflow : Obligations.ExactUnderNoOverflow := by
  unfold Obligations.ExactUnderNoOverflow
  intro i s t hno h
  obtain rfl := (exec_next_iff i s t).1 h
  cases i with
  | add | sub | addi => exact regInt_finishReg_wrap32 hno
  | lw rt rs offset =>
    exact ⟨effectiveAddress s rs offset, effectiveAddress_exact hno, regInt_finishReg_same s rt _⟩
  | sw rt rs offset =>
    exact ⟨effectiveAddress s rs offset, effectiveAddress_exact hno, congrArg _ (lookup_write_same ..)⟩
  | slt | bne | j | jal | cache | halt => trivial
  | unknown00 | unknown0C0F | unknown101F | unknown203F | unknown407F | unknown80FF => trivial

end Sys2Proof.Machine

/-! PROOFS. 47_host_interfaces.md and 60_exceptions.md: the trace event of a step (R185), the codes of the conditions (R200), and the
status interface (R188, R189). -/

namespace Sys2Proof.Machine

/-! ## R185: the trace event of a step -/

theorem slotEvent_of_invalid {e : Slot} {info : InvalidInfo} (s : State) (h : slotDecode e = .invalid info) :
    slotEvent s e = { bareEvent s e with notice := some (.invalidOperand info) } := by
  rw [slotEvent, h]

theorem traceOf_of_not_canStep {s : State} (h : ¬ canStep s) : traceOf s = none := by
  obtain ⟨f, -, hf⟩ := exists_stopReason_of_not_canStep h
  rw [traceOf, (stopReason_eq_some_iff s f).1 hf]

/-- A CACHE code adds a mode or a notice to its event, and no other field. -/
theorem cacheEvent_eq (ev : TraceEvent) (code : Word) :
    cacheEvent ev code = { ev with mode := (cacheEvent ev code).mode, notice := (cacheEvent ev code).notice } := by
  unfold cacheEvent
  cases cacheDirective code <;> rfl

/-- Whatever is decoded, the event keeps the pc and the entry as stored (R128). -/
theorem slotEvent_pc_slot (s : State) (e : Slot) : (slotEvent s e).pc = s.pc ∧ (slotEvent s e).slot = e := by
  cases hd : slotDecode e with
  | instr i =>
    rw [slotEvent_of_instr s hd]
    cases i with
    | cache code =>
      rw [instrEvent, cacheEvent_eq]
      exact ⟨rfl, rfl⟩
    | _ => exact ⟨rfl, rfl⟩
  | unknownTag tag =>
    rw [slotEvent_of_unknownTag s hd]
    exact ⟨rfl, rfl⟩
  | invalid info =>
    rw [slotEvent_of_invalid s hd]
    exact ⟨rfl, rfl⟩

/-- Settles O56: the event is `slotEvent` of the fetched entry, and each field is read off by what the entry decodes to. -/
theorem oneTraceEventPerStep : Obligations.OneTraceEventPerStep := by
  unfold Obligations.OneTraceEventPerStep
  refine fun s => ⟨traceOf_of_not_canStep, fun e hs he => ?_⟩
  obtain ⟨hpc, hslot⟩ := slotEvent_pc_slot s e
  refine ⟨_, traceOf_of_slotAtPc hs he, hpc, hslot, ?_⟩
  cases hd : slotDecode e with
  | instr i =>
    rw [slotEvent_of_instr s hd]
    cases i with
    | cache code =>
      have hkept := cacheEvent_eq (bareEvent s e) code
      exact ⟨congrArg TraceEvent.target hkept, congrArg TraceEvent.taken hkept, congrArg TraceEvent.addr hkept,
        cacheEvent_mode (bareEvent s e) code, cacheEvent_notice (bareEvent s e) code⟩
    | bne | j | jal | lw | sw => exact ⟨rfl, rfl, rfl, rfl, rfl⟩
    | add | sub | addi | slt | halt => exact ⟨rfl, rfl, rfl, rfl, iff_of_true rfl rfl⟩
    | unknown00 | unknown0C0F | unknown101F | unknown203F | unknown407F | unknown80FF =>
      exact ⟨rfl, rfl, rfl, rfl, iff_of_false nofun nofun⟩
  | unknownTag tag =>
    rw [slotEvent_of_unknownTag s hd]
    exact ⟨rfl, rfl, rfl, rfl, rfl⟩
  | invalid info =>
    rw [slotEvent_of_invalid s hd]
    exact ⟨rfl, rfl, rfl, rfl, rfl⟩

/-! ## R200: the codes of the conditions -/

/-- The code is one of CACHE's three (R170). -/
def IsCacheCode (code : Word) : Prop := code.toInt = 0 ∨ code.toInt = 1 ∨ code.toInt = 2

theorem effect_cache_of_not_isCacheCode {code : Word} (s : State) (h : ¬ IsCacheCode code) :
    effect (.cache code) s = skipUnknown s :=
  effect_cache_of_other_code s (fun h0 => h (.inl h0)) (fun h1 => h (.inr (.inl h1)))

/-- The condition a decoded entry raises, if it raises one (R202 to R206). -/
inductive Raises : Decoded → Option Notice → Prop where
  | nothing {i : Instr} (hcore : isCore i = true) (hcache : ∀ code, i = .cache code → IsCacheCode code) : Raises (.instr i) none
  | unknownOpcode {d : Decoded} (tag : UnknownTag) (h : IsUnknown d) : Raises d (some (.unknownOpcode tag))
  | unknownCacheCode {code : Word} (h : ¬ IsCacheCode code) : Raises (.instr (.cache code)) (some (.unknownCacheCode code))
  | invalidOperand (info : InvalidInfo) : Raises (.invalid info) (some (.invalidOperand info))

theorem slotEvent_raises (s : State) (e : Slot) : Raises (slotDecode e) (slotEvent s e).notice := by
  cases hd : slotDecode e with
  | instr i =>
    rw [slotEvent_of_instr s hd]
    cases i with
    | cache code =>
      rw [instrEvent, cacheEvent_notice]
      split
      case isTrue h => exact .nothing rfl fun _ hcode => (Instr.cache.inj hcode) ▸ h
      case isFalse h => exact .unknownCacheCode h
    | add | sub | addi | slt | lw | sw | bne | j | jal | halt => exact .nothing rfl nofun
    | unknown00 | unknown0C0F | unknown101F | unknown203F | unknown407F | unknown80FF => exact .unknownOpcode _ rfl
  | unknownTag tag =>
    rw [slotEvent_of_unknownTag s hd]
    exact .unknownOpcode (.name tag) trivial
  | invalid info =>
    rw [slotEvent_of_invalid s hd]
    exact .invalidOperand info

theorem execDecoded_instr (i : Instr) (s : State) : execDecoded (.instr i) s = exec i s := rfl

theorem code_eq_four_iff_of_raises {d : Decoded} {n : Option Notice} {s t : State} (h : Raises d n) (hfatal : s.fatal = none)
    (harm : execDecoded d s = .next t) : noticeCode n = 4 ↔ t.fatal ≠ none := by
  cases h with
  | nothing | unknownCacheCode =>
    rw [execDecoded_instr] at harm
    obtain ⟨-, hkept⟩ := exec_program_fatal harm
    exact iff_of_false nofun (not_not.2 (hkept.trans hfatal))
  | unknownOpcode tag hd =>
    cases (execDecoded_of_isUnknown s hd).symm.trans harm
    exact iff_of_false nofun (not_not.2 hfatal)
  | invalidOperand info =>
    cases harm
    exact iff_of_true rfl nofun

theorem eq_skipUnknown_of_raises {d : Decoded} {n : Option Notice} {s t : State} (h : Raises d n)
    (hcode : noticeCode n = 2 ∨ noticeCode n = 3) (harm : execDecoded d s = .next t) : t = skipUnknown s := by
  cases h with
  | nothing | invalidOperand => simp [noticeCode, Notice.code] at hcode
  | unknownOpcode tag hd => exact Host.Outcome.next.inj (harm.symm.trans (execDecoded_of_isUnknown s hd))
  | unknownCacheCode hcode' =>
    rw [execDecoded_instr, exec_next_iff, effect_cache_of_not_isCacheCode s hcode'] at harm
    exact harm

theorem isFatal_iff_code_eq_four (n : Notice) : n.isFatal = true ↔ n.code = 4 := by
  cases n with
  | invalidOperand info => exact iff_of_true rfl rfl
  | unknownOpcode tag | unknownCacheCode code => exact iff_of_false nofun nofun

theorem statusCode_eq (s : State) : statusCode s = if s.fatal = none then 0 else 4 := by
  split
  case isTrue hfatal =>
    cases hstop : stopReason s with
    | none => rw [statusCode, hstop]
    | some f =>
      cases f with
      | fatal info => cases (fatal_of_stopReason hstop).symm.trans hfatal
      | haltInstr | pcPastEnd | pcBelowZero => simp [statusCode, hstop, faultCode]
  case isFalse hfatal =>
    obtain ⟨info, hinfo⟩ := Option.ne_none_iff_exists'.1 hfatal
    rw [statusCode, stopReason_of_fatal hinfo]
    rfl

/-- Settles O55: the code is read off by what the entry decodes to, and the arm of an entry that raises a condition says what the step
changed; MissingSource is the loader's notice. -/
theorem conditionCodes : Obligations.ConditionCodes := by
  unfold Obligations.ConditionCodes
  refine ⟨fun s t e h he => ?_, statusCode_eq, fun program image l hl => ?_⟩
  · have hs := canStep_of_step_next h
    have hraises := slotEvent_raises s e
    have harm := execDecoded_of_step_next h he
    refine ⟨_, traceOf_of_slotAtPc hs he, ?_, code_eq_four_iff_of_raises hraises hs.1 harm,
      fun hcode => eq_skipUnknown_of_raises hraises hcode harm, fun c hc => ?_⟩
    · rw [TraceEvent.code]
      cases hd : slotDecode e with
      | instr i =>
        rw [slotEvent_of_instr s hd]
        cases i with
        | cache code =>
          rw [instrEvent, cacheEvent_notice, apply_ite noticeCode]
          rfl
        | add | sub | addi | lw | sw | slt | bne | j | jal | halt => rfl
        | unknown00 | unknown0C0F | unknown101F | unknown203F | unknown407F | unknown80FF => rfl
      | unknownTag tag =>
        rw [slotEvent_of_unknownTag s hd]
        rfl
      | invalid info =>
        rw [slotEvent_of_invalid s hd]
        rfl
    · rw [TraceEvent.code, hc]
      exact isFatal_iff_code_eq_four c
  · obtain ⟨mem0, -, -, -, hnotices⟩ := launch_ok_cases hl
    rw [hnotices]
    refine ⟨by simp, by simp, fun m _ => ?_⟩
    cases m <;> rfl

/-! ## R188, R189: the status interface -/

theorem frozen_of_not_canStep {s : State} (h : ¬ canStep s) : (statusReport s).frozen = some (contentsOf s) := by
  obtain ⟨f, -, hf⟩ := exists_stopReason_of_not_canStep h
  rw [statusReport_frozen, hf, Option.map_some]

theorem finalReport_eq_of_not_canStep {s : State} (h : ¬ canStep s) :
    finalReport s = if s.fatal = none then some (contentsOf s) else none := by
  split
  case isTrue hfatal => exact finalReport_of_stopped h hfatal
  case isFalse hfatal => exact finalReport_of_fatal hfatal

/-- Settles O42: the interface hands the fields on; what it freezes of a stopped machine are the contents of its report. -/
theorem statusInterfaceShowsTheState : Obligations.StatusInterfaceShowsTheState := by
  unfold Obligations.StatusInterfaceShowsTheState
  intro s
  refine ⟨rfl, rfl, rfl, stopReason_eq_none_iff s, fun f => ?_, statusCode_eq s, fun hs => ?_, fun hs hmem => ?_⟩
  · rw [statusReport_stop, stopReason_eq_some_iff, step_fault_iff]
  · rw [statusReport_frozen, (stopReason_eq_none_iff s).2 hs, Option.map_none]
  · exact ⟨contentsOf s, frozen_of_not_canStep hs, finalReport_eq_of_not_canStep hs, contentsOf_registers_length s,
      contentsOf_registers_getElem? s, snapshotOf_ascending hmem, mem_snapshotOf_iff_lookup hmem, fun _ => snapshotOf_inWordRange⟩

end Sys2Proof.Machine

/-! PROOFS. 00_scope.md: under NoOverflow the machine is the source's on unbounded integers (R12). -/

namespace Sys2Proof.Machine

/-! ## R12: decoding with literals of any size -/

section Formats
variable {α β γ δ : Type} {g : α → β} {g' : γ → β} {ts : List Token}

theorem map_recordR3_congr {make : RegIdx → RegIdx → RegIdx → α} {make' : RegIdx → RegIdx → RegIdx → γ}
    (h : ∀ r1 r2 r3, g (make r1 r2 r3) = g' (make' r1 r2 r3)) : g <$> recordR3 make ts = g' <$> recordR3 make' ts := by
  unfold recordR3
  split
  · simp [h]
  · rfl

/-- A literal in range is the integer of its word. -/
theorem operandAt_sourceLiteral {k : Nat} {t : Token} (h : tokenLiteralInRange .literal t) :
    operandAt k t (sourceLiteral t) = BitVec.toInt <$> operandAt k t (parseLiteral t) := by
  rw [sourceLiteral_eq h]
  cases parseLiteral t <;> rfl

theorem operandAt_sourceMemory {k : Nat} {t : Token} (h : tokenLiteralInRange .memory t) :
    operandAt k t (parseMemoryWith sourceLiteral t) = (fun p => (p.1.toInt, p.2)) <$> operandAt k t (parseMemory t) := by
  rw [sourceMemoryToken_eq h]
  cases parseMemory t <;> rfl

theorem map_recordRI_source {make : RegIdx → RegIdx → Int → α} {make' : RegIdx → RegIdx → Word → γ}
    (hts : ∀ p ∈ [OperandKind.register, .register, .literal].zip ts, tokenLiteralInRange p.1 p.2)
    (h : ∀ r1 r2 v, g (make r1 r2 v.toInt) = g' (make' r1 r2 v)) :
    g <$> recordRI sourceLiteral make ts = g' <$> recordRI parseLiteral make' ts := by
  unfold recordRI
  split
  · rw [operandAt_sourceLiteral (hts (.literal, _) (by simp))]
    simp [h]
  · rfl

theorem map_recordM_source {make : RegIdx → RegIdx → Int → α} {make' : RegIdx → RegIdx → Word → γ}
    (hts : ∀ p ∈ [OperandKind.register, .memory].zip ts, tokenLiteralInRange p.1 p.2)
    (h : ∀ r1 rs v, g (make r1 rs v.toInt) = g' (make' r1 rs v)) :
    g <$> recordM (parseMemoryWith sourceLiteral) make ts = g' <$> recordM parseMemory make' ts := by
  unfold recordM
  split
  · rw [operandAt_sourceMemory (hts (.memory, _) (by simp))]
    simp [h]
  · rfl

theorem map_recordI_source {make : Int → α} {make' : Word → γ}
    (hts : ∀ p ∈ [OperandKind.literal].zip ts, tokenLiteralInRange p.1 p.2) (h : ∀ v, g (make v.toInt) = g' (make' v)) :
    g <$> recordI sourceLiteral make ts = g' <$> recordI parseLiteral make' ts := by
  unfold recordI
  split
  · rw [operandAt_sourceLiteral (hts (.literal, _) (by simp))]
    simp [h]
  · rfl

theorem map_recordN_congr {i : α} {i' : γ} (h : g i = g' i') : g <$> recordN i ts = g' <$> recordN i' ts := by
  unfold recordN
  split
  · exact congrArg _ h
  · rfl

end Formats

theorem map_sourceOperands {o : Opcode} {ts : List Token}
    (hts : ∀ p ∈ (operandKinds o).zip ts, tokenLiteralInRange p.1 p.2) :
    SourceDecoded.instr <$> sourceOperands o ts = sourceInstr <$> recordOperands o ts := by
  cases o with
  | add | sub | slt => exact map_recordR3_congr fun _ _ _ => rfl
  | addi | bne => exact map_recordRI_source hts fun _ _ _ => rfl
  | lw | sw => exact map_recordM_source hts fun _ _ _ => rfl
  | j | jal | cache => exact map_recordI_source hts fun _ => rfl
  | halt => exact map_recordN_congr rfl

/-- A decoded value, or the fault found instead (R89). -/
def orInvalid : Except InvalidInfo SourceDecoded → SourceDecoded
  | .ok d => d
  | .error info => .invalid info

theorem sourceDecode_of_opcodeOfTag {r : Record} {o : Opcode} (h : opcodeOfTag r.opcode = some o) :
    sourceDecode (.record r) = orInvalid (SourceDecoded.instr <$> sourceOperands o r.operands) := by
  simp only [sourceDecode, h]
  cases sourceOperands o r.operands <;> rfl

theorem sourceDecoded_recordDecode {r : Record} {o : Opcode} (h : opcodeOfTag r.opcode = some o) :
    sourceDecoded (recordDecode r) = orInvalid (sourceInstr <$> recordOperands o r.operands) := by
  simp only [recordDecode, h]
  cases recordOperands o r.operands <;> rfl

/-- An entry with its literals in range is decoded alike by both machines. -/
theorem sourceDecode_eq {e : Slot} (h : literalsInRange e) : sourceDecode e = sourceDecoded (slotDecode e) := by
  cases e with
  | word w => rfl
  | record r =>
    cases ho : opcodeOfTag r.opcode with
    | none =>
      rw [slotDecode, recordDecode_of_opcodeOfTag_none ho]
      simp [sourceDecode, ho, sourceDecoded]
    | some o => rw [slotDecode, sourceDecoded_recordDecode ho, sourceDecode_of_opcodeOfTag ho, map_sourceOperands (h o ho)]

/-! ## R12: one step -/

theorem effect_cache (code : Word) (s : State) :
    effect (.cache code) s = setCacheEnabled (advance s) (effect (.cache code) s).cacheEnabled := by
  obtain ⟨b, hb⟩ := advance_agreeButCache_effect_cache code s
  rw [hb]
  rfl

/-- Where nothing leaves the word range, JAL's link included, an arm is the source's effect. -/
theorem sourceEffect_sourceOf {i : Instr} {k : SourceInstr} {s : State} (hk : sourceInstr i = .instr k) (hno : noOverflow i s)
    (hlink : inWordRange (s.pc + 1)) : sourceEffect k (sourceOf s) = sourceOf (effect i s) := by
  cases i with
  | add | sub | addi =>
    cases hk
    simp only [sourceEffect, sourceOf_get]
    exact sourceFinish_sourceOf (wrap32_toInt_of_inWordRange hno)
  | slt rd rs rt =>
    cases hk
    simp only [sourceEffect, sourceOf_get]
    exact sourceFinish_sourceOf (lessThanWord_toInt _ _)
  | lw rt rs offset =>
    cases hk
    simp only [sourceEffect, sourceOf_get, ← effectiveAddress_exact hno, sourceOf_mem]
    exact sourceFinish_sourceOf (read_snapshotOf _ _).symm
  | sw rt rs offset =>
    cases hk
    simp only [sourceEffect, sourceOf_get, ← effectiveAddress_exact hno, sourceOf_mem]
    rw [regInt, write_snapshotOf]
    rfl
  | bne rs rt offset =>
    cases hk
    simp only [sourceEffect, sourceOf_get, sourceOf_pc]
    rw [← bne_pc, effect_bne]
    rfl
  | jal target =>
    cases hk
    have hword : (linkValue s).toInt = s.pc + 1 := wrap32_toInt_of_inWordRange hlink
    rw [sourceEffect, sourceOf_pc, ← hword]
    exact congrArg (fun u : SourceState => { u with pc := target.toInt }) (sourceOf_writeReg s Config.link (linkValue s)).symm
  | cache code =>
    cases hk
    rw [effect_cache, effect_cache_cacheEnabled_toInt]
    rfl
  | j | halt => cases hk; rfl
  | unknown00 | unknown0C0F | unknown101F | unknown203F | unknown407F | unknown80FF => cases hk

theorem sourceInstr_of_not_isCore {i : Instr} (h : isCore i = false) : sourceInstr i = .unknown := by
  cases i with
  | add | sub | addi | lw | sw | slt | bne | j | jal | cache | halt => cases h
  | unknown00 | unknown0C0F | unknown101F | unknown203F | unknown407F | unknown80FF => rfl

theorem exists_sourceInstr_of_isCore {i : Instr} (h : isCore i = true) : ∃ k, sourceInstr i = .instr k := by
  cases i with
  | unknown00 | unknown0C0F | unknown101F | unknown203F | unknown407F | unknown80FF => cases h
  | add | sub | addi | lw | sw | slt | bne | j | jal | cache | halt => exact ⟨_, rfl⟩

theorem sourceStep_of_stopped {s : State} {f : Fault} (h : fetch s = .error f) : sourceStep (sourceOf s) = .error f := by
  rw [sourceStep, fetchFrom_sourceOf, h]

/-- What the source's machine makes of a decoded entry, and of a state. -/
def sourceArm (d : SourceDecoded) (s : SourceState) : SourceState :=
  match d with
  | .instr i => sourceEffect i s
  | .unknown => { s with pc := s.pc + 1 }
  | .invalid info => { s with fatal := some info }

theorem sourceStep_of_fetch {s : State} {e : Slot} (h : fetch s = .ok e) :
    sourceStep (sourceOf s) = .ok (sourceArm (sourceDecode e) (sourceOf s)) := by
  simp only [sourceStep, fetchFrom_sourceOf, h]
  cases sourceDecode e <;> rfl

theorem sourceArm_sourceOf {d : Decoded} {s t : State} (hno : ∀ i, d = .instr i → noOverflow i s)
    (hlink : inWordRange (s.pc + 1)) (harm : execDecoded d s = .next t) :
    sourceArm (sourceDecoded d) (sourceOf s) = sourceOf t := by
  cases d with
  | instr i =>
    obtain rfl := (exec_next_iff i s t).1 harm
    rw [sourceDecoded]
    cases hcore : isCore i with
    | true =>
      obtain ⟨k, hk⟩ := exists_sourceInstr_of_isCore hcore
      rw [hk]
      exact sourceEffect_sourceOf hk (hno i rfl) hlink
    | false =>
      rw [sourceInstr_of_not_isCore hcore, ← (exec_next_iff i s _).1 (exec_of_not_isCore s hcore)]
      rfl
  | unknownTag tag => cases harm; rfl
  | invalid info => cases harm; rfl

/-- The machine and the source's both go on, to the same state read as integers, or both stop for the same reason. -/
def StepAlike (x : Host.Outcome State Fault Refusal) (y : Except Fault SourceState) : Prop :=
  (∃ t, x = .next t ∧ y = .ok (sourceOf t)) ∨ ∃ f, x = .fault f ∧ y = .error f

theorem step_alike {s : State} (hlen : s.program.length ≤ Config.progLenMax)
    (hlit : ∀ e, slotAtPc s = some e → literalsInRange e) (hno : ∀ i, canStep s → atPc s (.instr i) → noOverflow i s) :
    StepAlike (step s) (sourceStep (sourceOf s)) := by
  cases hf : fetch s with
  | error f => exact .inr ⟨f, step_of_stopped hf, sourceStep_of_stopped hf⟩
  | ok e =>
    obtain ⟨t, ht⟩ := exists_execDecoded_eq_next (slotDecode e) s
    have hs := ((fetch_ok_iff s e).1 hf).1
    have hlink : inWordRange (s.pc + 1) := by
      obtain ⟨-, -, hlo, hhi⟩ := hs
      unfold progLen at hhi
      unfold Config.progLenMax at hlen
      unfold inWordRange
      omega
    have harm := sourceArm_sourceOf (fun i hd => hno i hs (atPc_of_fetch hf hd)) hlink ht
    rw [← sourceDecode_eq (hlit e (slotAtPc_of_fetch hf))] at harm
    exact .inl ⟨t, (step_of_fetch hf).trans ht, (sourceStep_of_fetch hf).trans (congrArg _ harm)⟩

/-- Settles O47: both machines fetch and decode alike, and no arm wraps. -/
theorem stepIsUnboundedUnderNoOverflow : Obligations.StepIsUnboundedUnderNoOverflow := by
  unfold Obligations.StepIsUnboundedUnderNoOverflow
  intro s hlen hlit hno
  obtain ⟨t, hs, hu⟩ | ⟨f, hs, hu⟩ := step_alike hlen hlit hno
  · rw [hs, hu]
  · rw [hs, hu]

/-! ## R12: a run -/

theorem stepsNoOverflow_of_step {s t : State} (hs : stepsNoOverflow s) (h : step s = .next t) : stepsNoOverflow t :=
  fun n u i hu => hs (n + 1) u i ((runSteps_succ_of_step_next h n).trans hu)

theorem mem_program_of_slotAtPc {s : State} {e : Slot} (h : slotAtPc s = some e) : e ∈ s.program := by
  unfold slotAtPc at h
  split at h
  · exact List.mem_of_getElem? h
  · cases h

theorem run_alike (n : Nat) {s : State} (hlen : s.program.length ≤ Config.progLenMax)
    (hlit : ∀ e ∈ s.program, literalsInRange e) (hno : stepsNoOverflow s) :
    StepAlike (runSteps n s) (sourceRun n (sourceOf s)) := by
  induction n generalizing s with
  | zero => exact .inl ⟨s, rfl, rfl⟩
  | succ n ih =>
    rw [runSteps_succ, sourceRun]
    obtain ⟨t, hs, hu⟩ | ⟨f, hs, hu⟩ := step_alike hlen (fun e he => hlit e (mem_program_of_slotAtPc he))
      (fun i => hno 0 s i rfl)
    · have hprogram := step_program hs
      rw [hs, hu]
      exact ih (hprogram ▸ hlen) (hprogram ▸ hlit) (stepsNoOverflow_of_step hno hs)
    · rw [hs, hu]
      exact .inr ⟨f, rfl, rfl⟩

/-- Pairs in the word range are loaded alike by both machines. -/
theorem sourceMemory_load_eq {pairs : List (Int × Int)} (h : ∀ p ∈ pairs, inWordRange p.1 ∧ inWordRange p.2) :
    SourceMemory.load pairs = snapshotOf (Memory.load (pairs.map wordPair)) := by
  induction pairs using List.reverseRecOn with
  | nil => rfl
  | append_singleton ps p ih =>
    have hps := ih fun q hq => h q (List.mem_append_left _ hq)
    obtain ⟨ha, hv⟩ := h p (List.mem_append_right _ List.mem_cons_self)
    have hlast : SourceMemory.load (ps ++ [p]) = SourceMemory.write (SourceMemory.load ps) p.1 p.2 := by
      simp [SourceMemory.load]
    rw [hlast, hps, List.map_append, List.map_singleton, wordPair, load_append_one, ← write_snapshotOf,
      wrap32_toInt_of_inWordRange ha, wrap32_toInt_of_inWordRange hv]

theorem eq_load_of_imageMemory {image : MemoryImage} {mem0 : Memory}
    (h : ∀ p ∈ imagePairs image, inWordRange p.1 ∧ inWordRange p.2) (hmem : imageMemory image = .ok mem0) :
    mem0 = Memory.load ((imagePairs image).map wordPair) := by
  cases image with
  | ordered pairs => exact Except.ok.inj (hmem.symm.trans (imageMemory_ordered_of_inWordRange h))
  | unordered pairs =>
    rw [imagePairs] at h
    simp only [imageMemory, imageWords_of_inWordRange h] at hmem
    split at hmem
    · cases hmem; rfl
    · cases hmem

theorem sourceMem0_eq {image : Option MemoryImage} {mem0 : Memory} (h : imageInRange image)
    (hmem : sourceMemory image = .ok mem0) : sourceMem0 image = snapshotOf mem0 := by
  cases image with
  | none => cases hmem; rfl
  | some image =>
    have hpairs := h image rfl
    rw [eq_load_of_imageMemory hpairs hmem]
    exact sourceMemory_load_eq hpairs

theorem sourceBoot_eq {program : Option (List Slot)} {image : Option MemoryImage} {l : Launched}
    (h : launch program image = .ok l) (himage : imageInRange image) : sourceBoot program image = sourceOf l.state := by
  obtain ⟨mem0, hmem, -, hstate, -⟩ := launch_ok_cases h
  rw [hstate, sourceBoot, sourceMem0_eq himage hmem]
  rfl

/-- Settles O48: both runs begin in the same state, read as integers, and go on step by step. -/
theorem runIsUnboundedUnderNoOverflow : Obligations.RunIsUnboundedUnderNoOverflow := by
  unfold Obligations.RunIsUnboundedUnderNoOverflow
  rintro program image l n hl ⟨himage, hlit, hno⟩
  obtain ⟨mem0, -, hlen, hstate, -⟩ := launch_ok_cases hl
  have hprogram : l.state.program = program.getD [] := congrArg State.program hstate
  rw [sourceBoot_eq hl himage]
  obtain ⟨t, hs, hu⟩ | ⟨f, hs, hu⟩ := run_alike n (hprogram ▸ hlen) (hprogram ▸ hlit) (hno l hl)
  · rw [hs, hu]
  · rw [hs, hu]

end Sys2Proof.Machine

/-! PROOFS. 30_encoding.md section 7: the assembly spelling (R114). -/

namespace Sys2Proof.Machine

/-! ## R114: decimal numbers -/

theorem digitChar_toNat {d : Nat} (h : d < 10) : (digitChar d).toNat = 48 + d := by
  interval_cases d <;> rfl

/-- The number that digits write after digits of value `acc`. -/
def decimalFrom (acc : Nat) (ds : Token) : Nat := ds.foldl (fun n c => 10 * n + (c.toNat - 48)) acc

theorem decimalValue_eq (ds : Token) : decimalValue ds = decimalFrom 0 ds := rfl

theorem decimalFrom_digitChar_cons (acc : Nat) {d : Nat} (h : d < 10) (ds : Token) :
    decimalFrom acc (digitChar d :: ds) = decimalFrom (10 * acc + d) ds := by
  rw [decimalFrom, List.foldl_cons, digitChar_toNat h, Nat.add_sub_cancel_left, decimalFrom]

/-- With fuel for every digit of `n`, what stands before `rest` writes `n`. -/
theorem decimalFrom_decimalDigits {fuel n : Nat} (h : n < 10 ^ (fuel + 1)) (rest : Token) :
    decimalFrom 0 (decimalDigits (fuel + 1) n rest) = decimalFrom n rest := by
  have hone {n : Nat} (hn : n < 10) (rest : Token) : decimalFrom 0 (digitChar n :: rest) = decimalFrom n rest := by
    rw [decimalFrom_digitChar_cons 0 hn, Nat.mul_zero, Nat.zero_add]
  induction fuel generalizing n rest with
  | zero =>
    have hn : n < 10 := h
    rw [decimalDigits, if_pos hn, hone hn]
  | succ fuel ih =>
    rw [decimalDigits]
    split
    case isTrue hn => exact hone hn rest
    case isFalse hn =>
      have hdiv : n / 10 < 10 ^ (fuel + 1) := Nat.div_lt_of_lt_mul (Nat.pow_succ' ▸ h)
      rw [ih hdiv, decimalFrom_digitChar_cons _ (Nat.mod_lt n (by decide)), Nat.div_add_mod]

theorem isDigits_digitChar_cons {d : Nat} (h : d < 10) {rest : Token} (hrest : ∀ c ∈ rest, 48 ≤ c.toNat ∧ c.toNat ≤ 57) :
    isDigits (digitChar d :: rest) := by
  refine ⟨List.cons_ne_nil _ _, List.forall_mem_cons.2 ⟨?_, hrest⟩⟩
  rw [digitChar_toNat h]
  omega

theorem isDigits_decimalDigits (fuel n : Nat) {rest : Token} (hrest : ∀ c ∈ rest, 48 ≤ c.toNat ∧ c.toNat ≤ 57) :
    isDigits (decimalDigits (fuel + 1) n rest) := by
  induction fuel generalizing n rest with
  | zero =>
    rw [decimalDigits]
    split
    case isTrue hn => exact isDigits_digitChar_cons hn hrest
    case isFalse => exact isDigits_digitChar_cons (Nat.mod_lt n (by decide)) hrest
  | succ fuel ih =>
    rw [decimalDigits]
    split
    case isTrue hn => exact isDigits_digitChar_cons hn hrest
    case isFalse => exact ih _ (isDigits_digitChar_cons (Nat.mod_lt n (by decide)) hrest).2

/-- The ten digits that registers and literals are spelled with. -/
theorem decimalDigits_ten {n : Nat} (h : n < 10000000000) :
    isDigits (decimalDigits 10 n []) ∧ decimalValue (decimalDigits 10 n []) = n :=
  ⟨isDigits_decimalDigits 9 n nofun, (decimalValue_eq _).trans (decimalFrom_decimalDigits (fuel := 9) h [])⟩

/-! ## R114: the tokens of the operands -/

theorem parseRegister_registerToken (r : RegIdx) : parseRegister (registerToken r) = .ok r := by
  obtain ⟨hdigits, hvalue⟩ := decimalDigits_ten (n := r.val) (by omega)
  exact (parseRegister_eq_ok_iff _ r).2 ⟨_, rfl, hdigits, hvalue⟩

theorem parseLiteral_literalToken (v : Word) : parseLiteral (literalToken v) = .ok v := by
  obtain ⟨hlo, hhi⟩ := word_toInt_inWordRange v
  obtain ⟨hdigits, hvalue⟩ := decimalDigits_ten (n := v.toInt.natAbs) (by omega)
  refine (parseLiteral_eq_ok_iff _ v).2 ⟨_, hdigits, ?_⟩
  rw [literalToken, hvalue]
  split
  case isTrue hneg => exact .inr ⟨rfl, by omega⟩
  case isFalse hneg => exact .inl ⟨.inl rfl, by omega⟩

theorem parseMemory_memoryToken (offset : Word) (rs : RegIdx) : parseMemory (memoryToken offset rs) = .ok (offset, rs) :=
  (memoryTokenGrammar _ offset rs).2 ⟨_, _, rfl, parseLiteral_literalToken offset, parseRegister_registerToken rs⟩

/-- The operands as R114 spells them give the instruction's operands, and the tag names its opcode. -/
theorem tokensGive_of_spell {i : Instr} {r : Record} (h : spell i = some r) :
    ∃ o, opcodeOfTag r.opcode = some o ∧ opcodeOf i = some o ∧ tokensGive i r.operands := by
  cases i with
  | add r1 r2 r3 | sub r1 r2 r3 | slt r1 r2 r3 =>
    cases h
    exact ⟨_, rfl, rfl, _, _, _, rfl, parseRegister_registerToken r1, parseRegister_registerToken r2,
      parseRegister_registerToken r3⟩
  | addi r1 r2 v | bne r1 r2 v =>
    cases h
    exact ⟨_, rfl, rfl, _, _, _, rfl, parseRegister_registerToken r1, parseRegister_registerToken r2,
      parseLiteral_literalToken v⟩
  | lw rt rs offset | sw rt rs offset =>
    cases h
    exact ⟨_, rfl, rfl, _, _, rfl, parseRegister_registerToken rt, parseMemory_memoryToken offset rs⟩
  | j v | jal v | cache v =>
    cases h
    exact ⟨_, rfl, rfl, _, rfl, parseLiteral_literalToken v⟩
  | halt =>
    cases h
    exact ⟨_, rfl, rfl, rfl⟩
  | unknown00 | unknown0C0F | unknown101F | unknown203F | unknown407F | unknown80FF => cases h

/-- Settles O10: each token is read back as the operand it spells. -/
theorem spellingDecodes : Obligations.SpellingDecodes := by
  unfold Obligations.SpellingDecodes
  intro i r h
  obtain ⟨o, htag, ho, hts⟩ := tokensGive_of_spell h
  exact recordDecode_of_operands_ok htag (recordOperands_of_tokensGive ho hts)

end Sys2Proof.Machine
